-- ==== Sys2Proof/Word.lean ====
section
/-! DEFINITION. The value types of the C40H7 execution core: Word, byte, register index, immediate
(spec/00_scope.md sections 5 and 6). -/

namespace Sys2Proof

/-- A Word: 32 bits, unsigned (00_scope.md section 6.1, R4, R5). It is a register's content, a memory
cell, an instruction, a segment id, an offset or a length, whichever the instruction that uses it makes
of it. -/
abbrev Word := BitVec 32

/-- A byte of the input or output stream (10_state.md R20, R21). -/
abbrev Byte := BitVec 8

/-- A register index, 0 to 7 (10_state.md R10): three bits, so every index names a register. -/
abbrev Reg := Fin 8

/-- The 25-bit unsigned immediate of format I (30_encoding.md R53, R56). -/
abbrev Imm := BitVec 25

end Sys2Proof
end

