-- ==== Sys2Proof/Syntax.lean ====
section
/-! DEFINITION. The instructions of the C40H7 execution core as syntax: one constructor for each row of
spec/opcode_table.json (30_encoding.md R50 to R53, R63). -/

namespace Sys2Proof

/-- A decoded instruction. The thirteen operations of format S carry all three register fields `a`
(bits [8:6]), `b` ([5:3]) and `c` ([2:0]), also those their operation ignores, as R54 and R55 decode
them; format I carries `a` ([27:25]) and the immediate ([24:0]). The last two stand for the words that
R57 calls illegal: the table lists them as rows, and the effect the spec gives them is the
`InvalidOpcode` fault (log 8). -/
inductive Instr where
  /-- Conditional Move, opcode 0 (R80). -/
  | cmov (a b c : Reg)
  /-- Segment Load, opcode 1 (R90). -/
  | sload (a b c : Reg)
  /-- Segment Store, opcode 2 (R91). -/
  | sstore (a b c : Reg)
  /-- Add, opcode 3 (R81). -/
  | add (a b c : Reg)
  /-- Multiply, opcode 4 (R82). -/
  | mul (a b c : Reg)
  /-- Divide, opcode 5 (R83). -/
  | div (a b c : Reg)
  /-- Bitwise NAND, opcode 6 (R84). -/
  | nand (a b c : Reg)
  /-- Halt, opcode 7 (R120); all three fields ignored. -/
  | halt (a b c : Reg)
  /-- Map Segment, opcode 8 (R99); `a` ignored. -/
  | map (a b c : Reg)
  /-- Unmap Segment, opcode 9 (R100); `a` and `b` ignored. -/
  | unmap (a b c : Reg)
  /-- Output, opcode 10 (R110); `a` and `b` ignored. -/
  | output (a b c : Reg)
  /-- Input, opcode 11 (R111); `a` and `b` ignored. -/
  | input (a b c : Reg)
  /-- Load Program, opcode 12 (R121); `a` ignored. -/
  | loadp (a b c : Reg)
  /-- Load Immediate, opcode 13 (R85), the one instruction of format I. -/
  | loadi (a : Reg) (imm : Imm)
  /-- Illegal opcode 14 (R57, R151). -/
  | illegal14
  /-- Illegal opcode 15 (R57, R151). -/
  | illegal15
  deriving DecidableEq, Repr

/-- The opcode number of an instruction: bits [31:28] of its word (30_encoding.md R51, R63). -/
def Instr.opcode : Instr → Nat
  | .cmov _ _ _ => 0
  | .sload _ _ _ => 1
  | .sstore _ _ _ => 2
  | .add _ _ _ => 3
  | .mul _ _ _ => 4
  | .div _ _ _ => 5
  | .nand _ _ _ => 6
  | .halt _ _ _ => 7
  | .map _ _ _ => 8
  | .unmap _ _ _ => 9
  | .output _ _ _ => 10
  | .input _ _ _ => 11
  | .loadp _ _ _ => 12
  | .loadi _ _ => 13
  | .illegal14 => 14
  | .illegal15 => 15

end Sys2Proof
end

