-- ==== Sys2Proof/WellFormed.lean ====
section
/-! DEFINITION. Which instructions are well formed: the fourteen operations of R1. The ranges of the
operand fields (three bits, twenty-five bits) are carried by the types `Reg` and `Imm`. -/

namespace Sys2Proof

/-- The instruction is one of the fourteen operations, opcodes 0 to 13 (00_scope.md R1, 30_encoding.md
R57): the two illegal opcodes have a row in the table and a fault, but they are no operation. -/
def Instr.wellFormed (i : Instr) : Bool := decide (i.opcode ≤ 13)

end Sys2Proof
end

