-- ==== Sys2Proof/Decode.lean ====
section
/-! DEFINITION. The decoder (30_encoding.md R50 to R57) and, after it, the canonical encoder (R59). -/

namespace Sys2Proof

/-- The bit field `w[hi:lo]`, as 00_scope.md section 6.1 defines it: `(w div 2^lo) mod 2^(hi-lo+1)`. -/
def bits (w : Word) (hi lo : Nat) : Nat := w.toNat / 2 ^ lo % 2 ^ (hi - lo + 1)

/-- The opcode field, bits [31:28], in both formats (R51). -/
def fieldOpcode (w : Word) : Nat := bits w 31 28

/-- Field A of format S, bits [8:6] (R52). -/
def fieldA (w : Word) : Reg := ⟨bits w 8 6, Nat.mod_lt _ (by decide)⟩

/-- Field B of format S, bits [5:3] (R52). -/
def fieldB (w : Word) : Reg := ⟨bits w 5 3, Nat.mod_lt _ (by decide)⟩

/-- Field C of format S, bits [2:0] (R52). -/
def fieldC (w : Word) : Reg := ⟨bits w 2 0, Nat.mod_lt _ (by decide)⟩

/-- Field A of format I, bits [27:25] (R53). -/
def fieldAImm (w : Word) : Reg := ⟨bits w 27 25, Nat.mod_lt _ (by decide)⟩

/-- The immediate of format I, bits [24:0] (R53, R56). -/
def fieldImm (w : Word) : Imm := BitVec.ofNat 25 (bits w 24 0)

/-- The decoder (R54): a function of the word alone, total on all 2^32 Words. Bits [27:9] of format S
are read by no field (R55). Opcodes 14 and 15 are rejected by their own names, `illegal14` and
`illegal15`, whose meaning is the `InvalidOpcode` fault (R57; log 8). A field of four bits has no value
after 14 but 15, so the last case is opcode 15 alone. -/
def decode (w : Word) : Instr :=
  match fieldOpcode w with
  | 0 => .cmov (fieldA w) (fieldB w) (fieldC w)
  | 1 => .sload (fieldA w) (fieldB w) (fieldC w)
  | 2 => .sstore (fieldA w) (fieldB w) (fieldC w)
  | 3 => .add (fieldA w) (fieldB w) (fieldC w)
  | 4 => .mul (fieldA w) (fieldB w) (fieldC w)
  | 5 => .div (fieldA w) (fieldB w) (fieldC w)
  | 6 => .nand (fieldA w) (fieldB w) (fieldC w)
  | 7 => .halt (fieldA w) (fieldB w) (fieldC w)
  | 8 => .map (fieldA w) (fieldB w) (fieldC w)
  | 9 => .unmap (fieldA w) (fieldB w) (fieldC w)
  | 10 => .output (fieldA w) (fieldB w) (fieldC w)
  | 11 => .input (fieldA w) (fieldB w) (fieldC w)
  | 12 => .loadp (fieldA w) (fieldB w) (fieldC w)
  | 13 => .loadi (fieldAImm w) (fieldImm w)
  | 14 => .illegal14
  | _ => .illegal15

/-- The Word that a number of at most 32 bits stands for, read from a table entry of `nbits` bits: every
bit above `nbits` is 0. An instruction is one Word (R50), so there is no second word to lay out. -/
def tableWord (nbits w : Nat) : Word := BitVec.ofNat 32 (w % 2 ^ nbits)

/-- What the decoder reads from a table row's instruction: none when the row claims more bits than the
32 of an instruction (R50). -/
def decodeTableWord (nbits w : Nat) : Option Instr :=
  if nbits ≤ 32 then some (decode (tableWord nbits w)) else none

/-- A word of format S with its unused bits [27:9] zero (R52, R59). -/
def encodeS (op : Nat) (a b c : Reg) : Word :=
  BitVec.ofNat 32 (op * 2 ^ 28 + a.val * 2 ^ 6 + b.val * 2 ^ 3 + c.val)

/-- A word of format I (R53, R59). -/
def encodeI (a : Reg) (imm : Imm) : Word :=
  BitVec.ofNat 32 (13 * 2 ^ 28 + a.val * 2 ^ 25 + imm.toNat)

/-- The canonical encoder (R59; the zeros in bits [27:9] are the spec's decision D2). An illegal opcode
has no canonical word of the spec's: the model writes the row's `match` value. -/
def encode : Instr → Word
  | .cmov a b c => encodeS 0 a b c
  | .sload a b c => encodeS 1 a b c
  | .sstore a b c => encodeS 2 a b c
  | .add a b c => encodeS 3 a b c
  | .mul a b c => encodeS 4 a b c
  | .div a b c => encodeS 5 a b c
  | .nand a b c => encodeS 6 a b c
  | .halt a b c => encodeS 7 a b c
  | .map a b c => encodeS 8 a b c
  | .unmap a b c => encodeS 9 a b c
  | .output a b c => encodeS 10 a b c
  | .input a b c => encodeS 11 a b c
  | .loadp a b c => encodeS 12 a b c
  | .loadi a imm => encodeI a imm
  | .illegal14 => 0xE0000000
  | .illegal15 => 0xF0000000

end Sys2Proof
end

