-- ==== Sys2Proof/Config.lean ====
section
/-! DEFINITION. The parameters of reset that State.reset takes at a default (00_scope.md section 5). No
value of this hardware is free: R3 says no rule draws one. -/

namespace Sys2Proof.Config

/-- REG_RESET, the registers' values after reset: eight zero Words. DESIGN CHOICE (the spec's own
decision D1; the source states none), unsafe for a program that reads a register before writing it
(log 2). `State.boot` takes any eight Words. -/
def regReset : Vector Word 8 := Vector.replicate 8 0

/-- STORAGE_LIMIT, the number of Words that all segments together may hold: none by default (R45).
DESIGN CHOICE (the spec's own decision D4), unsafe for claims about hardware with finite storage
(log 3). `State.boot` takes any limit. -/
def storageLimit : Option Nat := none

end Sys2Proof.Config
end

