-- ==== Sys2Proof/Machine/Constants.lean ====
section
/-! DEFINITION. The machine's fixed numbers that a single slip in the source could change, in one place
(91_not_in_source.md N23). -/

namespace Sys2Proof.Machine

/-- ID_MAX, the largest id the counter ever mints: 2^32 - 2 (43_segment_allocation.md R95, decision D3,
90_conflicts.md C3; log 7). -/
def idMax : Word := 0xFFFFFFFE

/-- The end-of-stream sentinel of IN (44_input_output.md R114). -/
def endOfStream : Word := 0xFFFFFFFF

/-- The largest value OUT emits (44_input_output.md R110). -/
def outputLimit : Word := 255

end Sys2Proof.Machine
end

