-- ==== Sys2Proof/Machine/Sparse.lean ====
section
/-! DEFINITION. Sparse maps from natural numbers, held as lists of (key, value) pairs by rising key. The
segment table and the contents of a segment are both such maps (10_state.md R14, R15; log 1). -/

namespace Sys2Proof.Machine.Sparse

variable {α : Type}

/-- The value at key `k`, or none when the key is not listed. -/
def find (k : Nat) : List (Nat × α) → Option α
  | [] => none
  | (j, v) :: rest => if j = k then some v else find k rest

/-- Set the value at key `k`, keeping the keys in rising order. -/
def put (k : Nat) (v : α) : List (Nat × α) → List (Nat × α)
  | [] => [(k, v)]
  | (j, u) :: rest =>
    if k < j then (k, v) :: (j, u) :: rest
    else if j = k then (k, v) :: rest
    else (j, u) :: put k v rest

/-- Remove key `k`. -/
def drop (k : Nat) (l : List (Nat × α)) : List (Nat × α) := l.filter fun e => e.1 != k

/-- The canonical form of a sparse map: keys strictly rising. -/
abbrev Rising (l : List (Nat × α)) : Prop := l.Pairwise fun e f => e.1 < f.1

end Sys2Proof.Machine.Sparse
end

