-- ==== Sys2Proof/Machine/Memory.lean ====
section
/-! DEFINITION. The segmented Word memory: segments, the segment table, and the operations that read and
change them (10_state.md R14 to R16, 20_memory.md R30 to R46, 50_interfaces.md R135). -/

namespace Sys2Proof.Machine

/-- A segment: `len` Words, indexed from 0 (10_state.md R15). `cells` lists the Words that are not 0, by
rising offset; an offset below `len` that is not listed holds 0, the zero fill of R96 (log 1). -/
structure Segment where
  len : Word
  cells : List (Nat × Word)
  deriving DecidableEq, Repr

/-- What an offset that is not listed reads as: 0 (43_segment_allocation.md R96, 20_memory.md R43). -/
def Segment.unlisted : Word := 0

/-- The Word at an offset of a segment; the bound is the translator's check, not this read's. -/
def Segment.read (g : Segment) (off : Word) : Word :=
  (Sparse.find off.toNat g.cells).getD Segment.unlisted

/-- Replace the Word at an offset. Writing what an unlisted offset reads as removes the entry, so that
equal contents are equal data. -/
def Segment.write (g : Segment) (off v : Word) : Segment :=
  { g with cells :=
      if v = Segment.unlisted then Sparse.drop off.toNat g.cells
      else Sparse.put off.toNat v g.cells }

/-- The segment of `n` Words, every Word 0 (43_segment_allocation.md R96). -/
def Segment.zeros (n : Word) : Segment := { len := n, cells := [] }

/-- The non-zero Words of a list, each with its offset, the first at offset `i`. -/
def cellsFrom (i : Nat) : List Word → List (Nat × Word)
  | [] => []
  | w :: rest =>
    if w = Segment.unlisted then cellsFrom (i + 1) rest else (i, w) :: cellsFrom (i + 1) rest

/-- The segment that holds a list of Words (10_state.md R26: `seg[0][i] = PROG[i]`). The list has at
most 2^32 - 1 Words (20_memory.md R46); the host's reset checks it. -/
def Segment.ofWords (ws : List Word) : Segment :=
  { len := BitVec.ofNat 32 ws.length, cells := cellsFrom 0 ws }

/-- The canonical form of a segment: offsets strictly rising, each below the length, no Word listed that
an unlisted offset reads as. -/
abbrev Segment.wf (g : Segment) : Prop :=
  Sparse.Rising g.cells ∧ ∀ c ∈ g.cells, c.1 < g.len.toNat ∧ c.2 ≠ Segment.unlisted

/-- The segment table: a partial map from ids to segments (10_state.md R14), listed by rising id. -/
abbrev Memory := List (Nat × Segment)

/-- The canonical form of the memory: ids strictly rising, each a 32-bit number, each segment in its
canonical form (log 1). -/
abbrev Memory.wf (m : Memory) : Prop :=
  Sparse.Rising m ∧ ∀ e ∈ m, e.1 < 2 ^ 32 ∧ e.2.wf

/-- The segment mapped at an id, or none when the id is unmapped (10_state.md R14). -/
def Memory.segment (m : Memory) (id : Word) : Option Segment := Sparse.find id.toNat m

/-- `register(id, n)` and `replace_zero(s)` of 50_interfaces.md R135: bind an id to a segment. -/
def Memory.register (m : Memory) (id : Word) (g : Segment) : Memory := Sparse.put id.toNat g m

/-- `release(id)` of 50_interfaces.md R135: unbind an id and discard its Words. -/
def Memory.release (m : Memory) (id : Word) : Memory := Sparse.drop id.toNat m

/-- The sum of the lengths of all mapped segments (43_segment_allocation.md R104). -/
def Memory.words (m : Memory) : Nat := (m.map fun e => e.2.len.toNat).sum

end Sys2Proof.Machine
end

