-- ==== Sys2Proof/Machine/State.lean ====
section
/-! DEFINITION. The state of the C40H7 execution core (10_state.md), its fault kinds (60_exceptions.md
R150), the reasons for which the model itself answers no next state, and the state after reset
(10_state.md R26, 70_reset_and_hazards.md R180). -/

namespace Sys2Proof.Machine

/-- The fault kinds of 60_exceptions.md R150. A fault records its kind and nothing else. -/
inductive FaultKind where
  /-- Decode of a word whose opcode field is 14 or 15 (R151). -/
  | invalidOpcode
  /-- DIV by a register that holds 0 (R152). -/
  | divisionByZero
  /-- OUT of a register above 255 (R153). -/
  | outputRangeError
  /-- An unmapped id, or an offset not below the length (R154). -/
  | invalidSegmentAccess
  /-- UNMAP of id 0 (R155). -/
  | unmapReservedSegment
  /-- MAP with the free stack empty and the counter past ID_MAX (R156). -/
  | idSpaceExhausted
  /-- A fetch at or beyond the end of segment 0 (R157). -/
  | outOfBoundsFetch
  /-- The loader's own: the program file is not a whole number of Words (R158); no step raises it. -/
  | programLoadError
  /-- MAP or LOADP beyond a finite STORAGE_LIMIT (R170); the spec's own kind. -/
  | storageExhausted
  deriving DecidableEq, Repr

/-- The execution status (10_state.md R13). -/
inductive Status where
  /-- The only status in which the core takes a step. -/
  | running
  /-- Entered by the Halt instruction only; terminal. -/
  | halted
  /-- Entered by a fault only; terminal. -/
  | faulted (kind : FaultKind)
  deriving DecidableEq, Repr

/-- Why the model's step answers no next state. The hardware's own faults are no such reason: they are
next states whose status is `faulted` (R161; log 6). -/
inductive Fault where
  /-- Raised by `step` when the status is Halted: no step is taken from a terminal state
  (40_execution_cycle.md R75). Safe: the hardware does nothing either. -/
  | stepWhileHalted
  /-- Raised by `step` when the status is Faulted with this kind: no step is taken from a terminal state
  (40_execution_cycle.md R75). Safe: the hardware does nothing either. -/
  | stepWhileFaulted (kind : FaultKind)
  deriving DecidableEq, Repr

/-- What the model refuses. -/
inductive Refusal where
  /-- Raised by an arm of `exec` whose instruction has no meaning yet (no arm is: every instruction is
  modelled). Safe. -/
  | notModelled (mnemonic : String)
  /-- Raised by the host's reset for a program image of 2^32 Words or more, which is no legal argument
  of reset (20_memory.md R46, 93_implementation_defined.md U11). Safe. -/
  | imageTooLong
  deriving DecidableEq, Repr

/-- The complete state of the core: the tuple of 10_state.md, and the two parameters of reset that a
step reads, INSTREAM and STORAGE_LIMIT (00_scope.md section 5). R22, R23 and R25: there is nothing else. -/
structure State where
  /-- The register bank, eight Words (R10, R11). -/
  x : Vector Word 8
  /-- The program counter, a Word index into segment 0 (R12). -/
  pc : Word
  /-- The execution status (R13). -/
  status : Status
  /-- The segment table (R14 to R16). -/
  seg : Memory
  /-- The allocator's counter `next_id` (R17). -/
  nextId : Word
  /-- The FreeIdPool, top of the stack first (R18). -/
  free : List Word
  /-- The parameter INSTREAM, fixed at reset (44_input_output.md R113; log 4). -/
  input : List Byte
  /-- The bytes of INSTREAM consumed so far, `in_pos` (R20). -/
  inPos : Nat
  /-- The bytes emitted so far, in order of emission (R21). -/
  out : List Byte
  /-- The parameter STORAGE_LIMIT (43_segment_allocation.md R104; log 3). -/
  storageLimit : Option Nat
  deriving DecidableEq, Repr

/-- The state that reset establishes for the four parameters of reset (10_state.md R26,
70_reset_and_hazards.md R180). The image has at most 2^32 - 1 Words (R46). -/
def State.boot (regReset : Vector Word 8) (storageLimit : Option Nat) (prog : List Word)
    (input : List Byte) : State where
  x := regReset
  pc := 0
  status := .running
  seg := [(0, Segment.ofWords prog)]
  nextId := 1
  free := []
  input := input
  inPos := 0
  out := []
  storageLimit := storageLimit

/-- The machine right after reset, with every parameter at its default and an empty program image and
input stream (R183 calls the empty image legal): the program is loaded from outside (log 5). -/
def State.reset : State := State.boot Config.regReset Config.storageLimit [] []

end Sys2Proof.Machine
end

