-- ==== Sys2Proof/Machine/Flags.lean ====
section
/-! DEFINITION. The conditions an instruction tests. The core has no flag of any kind (10_state.md R22,
00_scope.md R4): nothing here is stored; each is a function of an operand, consumed in the same
instruction (50_interfaces.md R133). -/

namespace Sys2Proof.Machine

/-- CMOV's test: any non-zero Word is true, on all 32 bits (41_alu_and_moves.md R80). -/
def conditionHolds (c : Word) : Bool := c != 0

/-- The divider's `div_by_zero` output (50_interfaces.md R133, 41_alu_and_moves.md R83). -/
def divByZero (c : Word) : Bool := c == 0

/-- OUT's range check, unsigned (44_input_output.md R110). -/
def exceedsOutput (c : Word) : Bool := decide (outputLimit < c)

/-- The translator's bound check, unsigned: `off >= len` (20_memory.md R35). -/
def beyondEnd (len off : Word) : Bool := decide (len ≤ off)

/-- The allocator's limit check: an id may still be minted (43_segment_allocation.md R95). -/
def canMint (nextId : Word) : Bool := decide (nextId ≤ idMax)

/-- The storage check: a total number of Words is within STORAGE_LIMIT (43_segment_allocation.md R104). -/
def withinStorage (limit : Option Nat) (words : Nat) : Bool :=
  match limit with
  | none => true
  | some l => decide (words ≤ l)

end Sys2Proof.Machine
end

