-- ==== Sys2Proof/Machine/Operands.lean ====
section
/-! DEFINITION. The operand forms: a register read, a register write, the immediate, the address pair,
and the arithmetic that joins two register operands (10_state.md R11, 42_segment_access.md R92,
30_encoding.md R56, 50_interfaces.md R132, R133). -/

namespace Sys2Proof.Machine

/-- `read(idx)` of the register bank; no register is hard-wired and no read faults (10_state.md R11). -/
def State.reg (s : State) (r : Reg) : Word := s.x[r.val]

/-- `write(idx, value)` of the register bank (10_state.md R11). -/
def State.setReg (s : State) (r : Reg) (v : Word) : State := { s with x := s.x.set r.val v }

/-- The immediate operand, zero-extended to a Word (30_encoding.md R56). -/
def immediate (imm : Imm) : Word := imm.setWidth 32

/-- The effective address of the one addressing mode: the pair (segment register, offset register), the
Words the two registers hold (42_segment_access.md R92). -/
def State.address (s : State) (segReg offReg : Reg) : Word × Word := (s.reg segReg, s.reg offReg)

/-- The ALU's sum, modulo 2^32 (41_alu_and_moves.md R81, R86). -/
def aluAdd (b c : Word) : Word := b + c

/-- The ALU's product, modulo 2^32 (R82, R86). -/
def aluMul (b c : Word) : Word := b * c

/-- The ALU's unsigned quotient (R83, R86); not meaningful when `c = 0`, where DIV raises a fault. -/
def aluDiv (b c : Word) : Word := b / c

/-- The ALU's bitwise NAND (R84). -/
def aluNand (b c : Word) : Word := ~~~(b &&& c)

end Sys2Proof.Machine
end

