-- ==== Sys2Proof/Machine/Ops.lean ====
section
/-! DEFINITION. The named operations over the state that the instructions are built from: the sequencer's
writes of `pc`, raising a fault, the segment address translator, the segment manager, and the streams. -/

namespace Sys2Proof.Machine

/-! ### The sequencer (40_execution_cycle.md R73, R74, 60_exceptions.md R161) -/

/-- `pc <- pc + 1`, the one implicit change of the program counter (R73). -/
def State.advance (s : State) : State := { s with pc := s.pc + 1 }

/-- `pc <- t`, Load Program's own write (R74). -/
def State.setPc (s : State) (t : Word) : State := { s with pc := t }

/-- Raising a fault of kind `k` (60_exceptions.md R161): the status becomes Faulted(k) and nothing else
changes; nothing is saved, control goes nowhere, `pc` stays at the faulting instruction. There is no
return from it (R162): only the host's reset leaves it. -/
def raise (k : FaultKind) (s : State) : Host.Outcome State Fault Refusal :=
  .next { s with status := .faulted k }

/-- The end of an instruction that may fault: an operation that raised leaves the state as the previous
instruction left it (R161); otherwise the operation's state advances by one Word (R73). -/
def complete (s : State) (r : Except FaultKind State) : Host.Outcome State Fault Refusal :=
  match r with
  | .error k => raise k s
  | .ok t => .next t.advance

/-! ### The segment address translator (20_memory.md R35 to R38, 50_interfaces.md R134) -/

/-- `get(id)` (43_segment_allocation.md R101): the segment mapped at an id; an unmapped id raises
InvalidSegmentAccess. The table is consulted afresh at every access (10_state.md R24). -/
def State.getSegment (s : State) (id : Word) : Except FaultKind Segment :=
  match s.seg.segment id with
  | none => .error .invalidSegmentAccess
  | some g => .ok g

/-- `len(id)`, or none when the id is unmapped (00_scope.md section 6.2). -/
def State.lenOf (s : State) (id : Word) : Option Word := (s.seg.segment id).map (·.len)

/-- `mapped(id)` (00_scope.md section 6.2). -/
def State.mapped (s : State) (id : Word) : Bool := (s.seg.segment id).isSome

/-- `Translate(id, off)` (R35): the segment that holds the cell, after the id check and the bound check. -/
def State.translate (s : State) (id off : Word) : Except FaultKind Segment :=
  match s.getSegment id with
  | .error k => .error k
  | .ok g => if beyondEnd g.len off then .error .invalidSegmentAccess else .ok g

/-- `MemRead((id, off), 1)` (R36). -/
def State.memRead (s : State) (id off : Word) : Except FaultKind Word :=
  (s.translate id off).map fun g => g.read off

/-- `MemWrite((id, off), 1, v)` (R37). -/
def State.memWrite (s : State) (id off v : Word) : Except FaultKind State :=
  (s.translate id off).map fun g => { s with seg := s.seg.register id (g.write off v) }

/-- `Fetch(pc)` (R38): a Word of segment 0, with its own fault kind. Segment 0 is mapped in every
reachable state (10_state.md R16); where a state that no run reaches has none, its length counts as 0
(DESIGN CHOICE, safe: log 10). -/
def State.fetch (s : State) : Except FaultKind Word :=
  match s.seg.segment 0 with
  | none => .error .outOfBoundsFetch
  | some g => if beyondEnd g.len s.pc then .error .outOfBoundsFetch else .ok (g.read s.pc)

/-! ### The segment manager (43_segment_allocation.md R95 to R104) -/

/-- `AllocateId()` (R95): the most recently freed id first, then the counter. -/
def State.allocateId (s : State) : Except FaultKind (Word × State) :=
  match s.free with
  | id :: rest => .ok (id, { s with free := rest })
  | [] =>
    if canMint s.nextId then .ok (s.nextId, { s with nextId := s.nextId + 1 })
    else .error .idSpaceExhausted

/-- `Create(n)` (R96), with R104's storage check first (60_exceptions.md R160): the id of a new segment
of `n` zero Words, and the state in which it is mapped. -/
def State.createSegment (s : State) (n : Word) : Except FaultKind (Word × State) :=
  if withinStorage s.storageLimit (n.toNat + s.seg.words) then
    (s.allocateId).map fun r =>
      (r.1, { r.2 with seg := r.2.seg.register r.1 (Segment.zeros n) })
  else .error .storageExhausted

/-- `Delete(id)` (R97, R98): unbind the id and push it on the free stack. -/
def State.deleteSegment (s : State) (id : Word) : Except FaultKind State :=
  if id = 0 then .error .unmapReservedSegment
  else (s.getSegment id).map fun _ => { s with seg := s.seg.release id, free := id :: s.free }

/-- `ReplaceZero(g)` (R102), with R104's storage check, which leaves the old segment 0 out of the sum. -/
def State.replaceZero (s : State) (g : Segment) : Except FaultKind State :=
  if withinStorage s.storageLimit (g.len.toNat + (s.seg.release 0).words) then
    .ok { s with seg := s.seg.register 0 g }
  else .error .storageExhausted

/-- Load Program's copy (45_control.md R121): nothing for id 0; otherwise segment 0 becomes a duplicate
of the segment mapped at `id`, checked as mapped first (60_exceptions.md R160). -/
def State.copyToZero (s : State) (id : Word) : Except FaultKind State :=
  if id = 0 then .ok s
  else
    match s.getSegment id with
    | .error k => .error k
    | .ok g => s.replaceZero g

/-! ### The streams (44_input_output.md R112 to R114) -/

/-- `OutputByte(b)` (R112). -/
def State.outputByte (s : State) (b : Byte) : State := { s with out := s.out ++ [b] }

/-- `InputByte()` (R113) as the Word it delivers: the next byte zero-extended, consumed; or the sentinel
at end of stream, consuming nothing (R114). -/
def State.inputWord (s : State) : Word × State :=
  match s.input[s.inPos]? with
  | some b => (b.setWidth 32, { s with inPos := s.inPos + 1 })
  | none => (endOfStream, s)

end Sys2Proof.Machine
end

