-- ==== Sys2Proof/Machine/AluMoves.lean ====
section
/-! DEFINITION. The meanings of the register moves and ALU operations (41_alu_and_moves.md R80 to R87):
CMOV, ADD, MUL, DIV, NAND, LOADI. Every source register is read in the state before the write (R87). -/

namespace Sys2Proof.Machine

/-- CMOV, opcode 0 (R80): `if x[C] != 0 then x[A] <- x[B]`. -/
def execCmov (a b c : Reg) (s : State) : Host.Outcome State Fault Refusal :=
  .next (if conditionHolds (s.reg c) then s.setReg a (s.reg b) else s).advance

/-- ADD, opcode 3 (R81). -/
def execAdd (a b c : Reg) (s : State) : Host.Outcome State Fault Refusal :=
  .next (s.setReg a (aluAdd (s.reg b) (s.reg c))).advance

/-- MUL, opcode 4 (R82). -/
def execMul (a b c : Reg) (s : State) : Host.Outcome State Fault Refusal :=
  .next (s.setReg a (aluMul (s.reg b) (s.reg c))).advance

/-- DIV, opcode 5 (R83): a zero divisor raises DivisionByZero before `x[A]` is written (R152). -/
def execDiv (a b c : Reg) (s : State) : Host.Outcome State Fault Refusal :=
  complete s <|
    if divByZero (s.reg c) then .error .divisionByZero
    else .ok (s.setReg a (aluDiv (s.reg b) (s.reg c)))

/-- NAND, opcode 6 (R84). -/
def execNand (a b c : Reg) (s : State) : Host.Outcome State Fault Refusal :=
  .next (s.setReg a (aluNand (s.reg b) (s.reg c))).advance

/-- LOADI, opcode 13 (R85): `x[A] <- zext_32(imm)`. -/
def execLoadi (a : Reg) (imm : Imm) (s : State) : Host.Outcome State Fault Refusal :=
  .next (s.setReg a (immediate imm)).advance

end Sys2Proof.Machine
end

