-- ==== Sys2Proof/Machine/Control.lean ====
section
/-! DEFINITION. The meanings of the control operations (45_control.md R120, R121) and of the two illegal
opcodes (30_encoding.md R57, 60_exceptions.md R151). -/

namespace Sys2Proof.Machine

/-- HALT, opcode 7 (R120): `status <- Halted`; `pc` stays. All three fields are ignored. -/
def execHalt (_a _b _c : Reg) (s : State) : Host.Outcome State Fault Refusal :=
  .next { s with status := .halted }

/-- LOADP, opcode 12 (R121): copy segment `x[B]` into segment 0 unless `x[B] = 0`, then `pc <- x[C]` with
no increment (40_execution_cycle.md R74). Field A is ignored. -/
def execLoadp (_a b c : Reg) (s : State) : Host.Outcome State Fault Refusal :=
  match s.copyToZero (s.reg b) with
  | .error k => raise k s
  | .ok t => .next (t.setPc (s.reg c))

/-- Opcode 14 (R57): raises InvalidOpcode, whatever the other 28 bits hold. -/
def execIllegal14 (s : State) : Host.Outcome State Fault Refusal := raise .invalidOpcode s

/-- Opcode 15 (R57): raises InvalidOpcode, whatever the other 28 bits hold. -/
def execIllegal15 (s : State) : Host.Outcome State Fault Refusal := raise .invalidOpcode s

end Sys2Proof.Machine
end

