-- ==== Sys2Proof/Machine/InputOutput.lean ====
section
/-! DEFINITION. The meanings of output and input (44_input_output.md R110, R111). -/

namespace Sys2Proof.Machine

/-- OUT, opcode 10 (R110): emit the byte `x[C]`, or raise OutputRangeError above 255 (R153). Fields A
and B are ignored. -/
def execOutput (_a _b c : Reg) (s : State) : Host.Outcome State Fault Refusal :=
  complete s <|
    if exceedsOutput (s.reg c) then .error .outputRangeError
    else .ok (s.outputByte ((s.reg c).setWidth 8))

/-- IN, opcode 11 (R111): `x[C]` becomes the next byte, or 0xFFFFFFFF at end of stream. Fields A and B
are ignored. -/
def execInput (_a _b c : Reg) (s : State) : Host.Outcome State Fault Refusal :=
  .next (s.inputWord.2.setReg c s.inputWord.1).advance

end Sys2Proof.Machine
end

