-- ==== Sys2Proof/Machine/SegmentAccess.lean ====
section
/-! DEFINITION. The meanings of the segment load and store (42_segment_access.md R90 to R92). -/

namespace Sys2Proof.Machine

/-- SLOAD, opcode 1 (R90): `x[A] <- MemRead((x[B], x[C]), 1)`. -/
def execSload (a b c : Reg) (s : State) : Host.Outcome State Fault Refusal :=
  complete s ((s.memRead (s.address b c).1 (s.address b c).2).map fun v => s.setReg a v)

/-- SSTORE, opcode 2 (R91): `MemWrite((x[A], x[B]), 1, x[C])`. -/
def execSstore (a b c : Reg) (s : State) : Host.Outcome State Fault Refusal :=
  complete s (s.memWrite (s.address a b).1 (s.address a b).2 (s.reg c))

end Sys2Proof.Machine
end

