-- ==== Sys2Proof/Machine/SegmentAllocation.lean ====
section
/-! DEFINITION. The meanings of map and unmap (43_segment_allocation.md R99, R100). -/

namespace Sys2Proof.Machine

/-- MAP, opcode 8 (R99): `id = Create(x[C]); x[B] <- id`. Field A is ignored. -/
def execMap (_a b c : Reg) (s : State) : Host.Outcome State Fault Refusal :=
  complete s ((s.createSegment (s.reg c)).map fun r => r.2.setReg b r.1)

/-- UNMAP, opcode 9 (R100): `Delete(x[C])`. Fields A and B are ignored; `x[C]` keeps its value. -/
def execUnmap (_a _b c : Reg) (s : State) : Host.Outcome State Fault Refusal :=
  complete s (s.deleteSegment (s.reg c))

end Sys2Proof.Machine
end

