-- ==== Sys2Proof/Machine/FetchPlace.lean ====
section
/-! DEFINITION. Where a step fetches its next instruction, and how a Word is placed there from outside. -/

namespace Sys2Proof.Machine

/-- The Word index at which a placed instruction stands: `pc`, but for the one value of `pc` that no
segment 0 can reach (a segment has at most 2^32 - 1 Words, 10_state.md R15), where it is 0 (log 16). -/
def placeIndex (pc : Word) : Word := if pc = 0xFFFFFFFF then 0 else pc

/-- Segment 0, long enough to hold index `k`, with the Word `w` there. -/
def placeInSegment (g : Segment) (k w : Word) : Segment :=
  Segment.write { g with len := if beyondEnd g.len k then k + 1 else g.len } k w

/-- The state in which the next step fetches `w`: Running, with `w` in segment 0 at `pc`. -/
def placeInstruction (s : State) (w : Word) : State :=
  { s with
    status := .running
    pc := placeIndex s.pc
    seg := s.seg.register 0
      (placeInSegment ((s.seg.segment 0).getD (Segment.zeros 0)) (placeIndex s.pc) w) }

end Sys2Proof.Machine
end

