-- ==== Sys2Proof/Machine/Step.lean ====
section
/-! DEFINITION. One step: fetch, decode, dispatch, advance (40_execution_cycle.md R70). -/

namespace Sys2Proof.Machine

/-- One step of the core (R70). Each meaning holds its own advance of `pc` (R78). From Halted or Faulted
no step is taken (R75): the step answers the model's own fault (log 6). -/
def step (s : State) : Host.Outcome State Fault Refusal :=
  match s.status with
  | .halted => .fault .stepWhileHalted
  | .faulted k => .fault (.stepWhileFaulted k)
  | .running =>
    match s.fetch with
    | .error k => raise k s
    | .ok w => exec (decode w) s

/-- `s` with the instruction of a table row stored where `step` fetches its next instruction: the load
of a program from outside, for one Word (log 5, log 16). -/
def State.withFetchWord (s : State) (nbits w : Nat) : State :=
  placeInstruction s (tableWord nbits w)

end Sys2Proof.Machine
end

