-- ==== Sys2Proof/Machine/HostPort.lean ====
section
/-! DEFINITION. What the environment can do to the core and see of it: the loader's result, reset, and the
status port (20_memory.md R32, 50_interfaces.md R140, R142, 70_reset_and_hazards.md R180, R181). -/

namespace Sys2Proof.Machine

/-- The Word that four bytes of a program file make, the most significant first (20_memory.md R32). -/
def bigEndianWord (b0 b1 b2 b3 : Byte) : Word :=
  BitVec.ofNat 32 (b0.toNat * 2 ^ 24 + b1.toNat * 2 ^ 16 + b2.toNat * 2 ^ 8 + b3.toNat)

/-- The program image that a program file's bytes make (20_memory.md R32, 70_reset_and_hazards.md R181):
whole Words, each big-endian; a length that is no multiple of 4 is the loader's own ProgramLoadError
(60_exceptions.md R158), and the core is never started. -/
def assemble : List Byte → Except FaultKind (List Word)
  | [] => .ok []
  | b0 :: b1 :: b2 :: b3 :: rest => (assemble rest).map fun ws => bigEndianWord b0 b1 b2 b3 :: ws
  | _ => .error .programLoadError

/-- The host's reset of a core in any state (50_interfaces.md R142, 10_state.md R27): nothing of `s`
survives but the parameter STORAGE_LIMIT, which belongs to the machine. An image of 2^32 Words or more is
no legal argument (20_memory.md R46; log 12). -/
def hostReset (s : State) (prog : List Word) (input : List Byte) :
    Host.Outcome State Fault Refusal :=
  if prog.length < 2 ^ 32 then .next (State.boot Config.regReset s.storageLimit prog input)
  else .refused .imageTooLong

/-- The numeric code of a fault kind (60_exceptions.md R150). -/
def FaultKind.code : FaultKind → BitVec 4
  | .invalidOpcode => 1
  | .divisionByZero => 2
  | .outputRangeError => 3
  | .invalidSegmentAccess => 4
  | .unmapReservedSegment => 5
  | .idSpaceExhausted => 6
  | .outOfBoundsFetch => 7
  | .programLoadError => 8
  | .storageExhausted => 9

/-- The status port (50_interfaces.md R140): `state[1:0]` and `fault_code[3:0]`. -/
def statusPort : Status → BitVec 2 × BitVec 4
  | .running => (0, 0)
  | .halted => (1, 0)
  | .faulted k => (2, k.code)

end Sys2Proof.Machine
end

