-- ==== Sys2Proof/Safety.lean ====
section
/-! DEFINITION. What counts as a good state and a safe run, in the terms the statements use
(10_state.md R13, R19, 40_execution_cycle.md R77). -/

namespace Sys2Proof.Machine

/-- The invariants the spec gives of every reachable state (10_state.md R19 (a) to (e), R16, R17, R20),
and the canonical form of the memory (log 1). -/
structure State.Inv (s : State) : Prop where
  /-- The memory is in its one canonical form. -/
  memory : s.seg.wf
  /-- R19 (a), R16: id 0 is mapped. -/
  zeroMapped : s.mapped 0 = true
  /-- R19 (b): every id in the free stack occurs there once. -/
  freeOnce : s.free.Nodup
  /-- R19 (b): every id in the free stack is unmapped and is not 0. -/
  freeUnmapped : ∀ id ∈ s.free, id ≠ 0 ∧ s.mapped id = false
  /-- R19 (c), (d): the non-zero ids below the counter are exactly those that are mapped or free. -/
  minted : ∀ id : Word, id ≠ 0 → (id.toNat < s.nextId.toNat ↔ s.mapped id = true ∨ id ∈ s.free)
  /-- R17: the counter starts at 1 and never falls. -/
  counter : 1 ≤ s.nextId.toNat
  /-- R20: the input position never exceeds the length of the stream. -/
  inputPosition : s.inPos ≤ s.input.length

/-- The run relation (40_execution_cycle.md R77): `t` is reached from `s` by some number of steps. -/
inductive Reaches (s : State) : State → Prop where
  /-- No step. -/
  | refl : Reaches s s
  /-- One more step. -/
  | tail {t u : State} : Reaches s t → step t = .next u → Reaches s u

/-- A state in which no step is taken (40_execution_cycle.md R75). -/
def State.terminal (s : State) : Prop := s.status ≠ .running

/-- A state no run from which ends in a fault: what a safe program must establish
(70_reset_and_hazards.md R184, R186). -/
def State.safe (s : State) : Prop := ∀ t k, Reaches s t → t.status ≠ .faulted k

end Sys2Proof.Machine
end

