-- ==== Sys2Proof/Certificates/Slice0/Obligations.lean ====
section
/-! DEFINITION. The statements for the provers, each a formalisation of numbered rules of spec/. -/

/-! ### The terms the statements are written in -/

namespace Sys2Proof.Claims

open Sys2Proof.Machine

/-- `w` is a word of format S: opcode `op` in bits [31:28], the fields in [8:6], [5:3] and [2:0], bits
[27:9] anything (30_encoding.md R51, R52). -/
def FormatS (op : Nat) (w : Word) (a b c : Reg) : Prop :=
  w.toNat / 2 ^ 28 = op ∧ w.toNat / 2 ^ 6 % 8 = a.val ∧ w.toNat / 2 ^ 3 % 8 = b.val ∧
    w.toNat % 8 = c.val

/-- `w` is a word of format I: opcode 13, the register in [27:25], the immediate in [24:0] (R53). -/
def FormatI (w : Word) (a : Reg) (imm : Imm) : Prop :=
  w.toNat / 2 ^ 28 = 13 ∧ w.toNat / 2 ^ 25 % 8 = a.val ∧ w.toNat % 2 ^ 25 = imm.toNat

/-- Every register reads as before. -/
def SameRegisters (s t : State) : Prop := ∀ r, t.reg r = s.reg r

/-- Every register but `a` reads as before. -/
def SameRegistersBut (a : Reg) (s t : State) : Prop := ∀ r, r ≠ a → t.reg r = s.reg r

/-- The segment at `id`, its being mapped, its length and each of its Words, reads as before. -/
def SameSegment (id : Word) (s t : State) : Prop :=
  t.lenOf id = s.lenOf id ∧ ∀ off, t.memRead id off = s.memRead id off

/-- All of memory reads as before. -/
def SameMemory (s t : State) : Prop := ∀ id, SameSegment id s t

/-- The allocator's counter and stack are as before. -/
def SameAllocator (s t : State) : Prop := t.nextId = s.nextId ∧ t.free = s.free

/-- The input stream, its position and the output trace are as before. -/
def SameStreams (s t : State) : Prop := t.input = s.input ∧ t.inPos = s.inPos ∧ t.out = s.out

/-- The instruction completed and went on to the next Word (40_execution_cycle.md R73), the parameter
STORAGE_LIMIT being no step's to change. -/
def WentOn (s t : State) : Prop :=
  t.pc = s.pc + 1 ∧ t.status = s.status ∧ t.storageLimit = s.storageLimit

/-- The frame of an instruction that touches nothing but register `a` and `pc`. -/
def OnlyRegister (a : Reg) (s t : State) : Prop :=
  SameRegistersBut a s t ∧ SameMemory s t ∧ SameAllocator s t ∧ SameStreams s t ∧ WentOn s t

/-- The instruction takes the fault entry of 60_exceptions.md R161: status Faulted(k), all else as before. -/
def Raises (i : Instr) (s : State) (k : FaultKind) : Prop :=
  exec i s = .next { s with status := .faulted k }

/-- A total of `n` Words of storage is within STORAGE_LIMIT (43_segment_allocation.md R104). -/
def Fits (s : State) (n : Nat) : Prop := ∀ l, s.storageLimit = some l → n ≤ l

/-- The register an instruction may write (10_state.md, the table after R11). -/
def destination : Instr → Option Reg
  | .cmov a _ _ | .sload a _ _ | .add a _ _ | .mul a _ _ | .div a _ _ | .nand a _ _
  | .loadi a _ => some a
  | .map _ b _ => some b
  | .input _ _ c => some c
  | .sstore _ _ _ | .halt _ _ _ | .unmap _ _ _ | .output _ _ _ | .loadp _ _ _
  | .illegal14 | .illegal15 => none

/-- The registers an instruction reads (10_state.md, the table after R11). -/
def sources : Instr → List Reg
  | .cmov _ b c | .sload _ b c | .add _ b c | .mul _ b c | .div _ b c | .nand _ b c
  | .loadp _ b c => [b, c]
  | .sstore a b c => [a, b, c]
  | .map _ _ c | .unmap _ _ c | .output _ _ c => [c]
  | .halt _ _ _ | .input _ _ _ | .loadi _ _ | .illegal14 | .illegal15 => []

/-- The instruction writes register `r` when executed in `s`: `r` is its destination, it completes, and a
CMOV finds its condition true (41_alu_and_moves.md R80: otherwise no register is written). -/
def Writes (i : Instr) (s : State) (r : Reg) : Prop :=
  destination i = some r ∧ (∀ k, ¬ Raises i s k) ∧ ∀ a b c, i = .cmov a b c → s.reg c ≠ 0

/-- The fault kinds an instruction can raise (60_exceptions.md, the table after R171; R57 for the two
illegal opcodes). -/
def tabledFaults : Instr → List FaultKind
  | .cmov _ _ _ | .add _ _ _ | .mul _ _ _ | .nand _ _ _ | .loadi _ _ | .input _ _ _
  | .halt _ _ _ => []
  | .div _ _ _ => [.divisionByZero]
  | .sload _ _ _ | .sstore _ _ _ => [.invalidSegmentAccess]
  | .map _ _ _ => [.idSpaceExhausted, .storageExhausted]
  | .unmap _ _ _ => [.unmapReservedSegment, .invalidSegmentAccess]
  | .output _ _ _ => [.outputRangeError]
  | .loadp _ _ _ => [.invalidSegmentAccess, .storageExhausted]
  | .illegal14 | .illegal15 => [.invalidOpcode]

/-- Unmap the listed ids, the first of the list first. -/
def unmapAll : List Word → State → Except FaultKind State
  | [], s => .ok s
  | id :: ids, s =>
    match s.deleteSegment id with
    | .error k => .error k
    | .ok t => unmapAll ids t

/-- Map segments of the listed lengths, the first of the list first; the ids returned, in that order. -/
def mapAll : List Word → State → Except FaultKind (List Word × State)
  | [], s => .ok ([], s)
  | n :: ns, s =>
    match s.createSegment n with
    | .error k => .error k
    | .ok (id, t) =>
      match mapAll ns t with
      | .error k => .error k
      | .ok (ids, u) => .ok (id :: ids, u)

end Sys2Proof.Claims

open Sys2Proof Sys2Proof.Machine Sys2Proof.Claims

/-! ### Encoding (30_encoding.md) -/

/-- R60: decode after encode is the identity on well-formed instructions; encode after decode gives a
word back exactly when the word is canonical; and the decoder is not injective on format S. -/
def Obligations.DecodeAndEncodeAgree : Prop :=
  (∀ i : Instr, i.wellFormed = true → decode (encode i) = i) ∧
  (∀ w : Word, ((decode w).wellFormed = true ∧ encode (decode w) = w) ↔
    (w.toNat / 2 ^ 28 ≤ 13 ∧ (w.toNat / 2 ^ 28 = 13 ∨ w.toNat / 2 ^ 9 % 2 ^ 19 = 0))) ∧
  (∃ w v : Word, w.toNat / 2 ^ 28 ≤ 12 ∧ v.toNat / 2 ^ 28 ≤ 12 ∧ w ≠ v ∧ decode w = decode v)

/-- R59: the numbers the canonical encoder writes, for format S and for format I. The zeros in bits
[27:9] are the spec's own decision D2. -/
def Obligations.EncoderWritesTheSpecsFormula : Prop :=
  (∀ (a b c : Reg) (op : Nat) (i : Instr),
    (op, i) ∈ [(0, Instr.cmov a b c), (1, .sload a b c), (2, .sstore a b c), (3, .add a b c),
      (4, .mul a b c), (5, .div a b c), (6, .nand a b c), (7, .halt a b c), (8, .map a b c),
      (9, .unmap a b c), (10, .output a b c), (11, .input a b c), (12, .loadp a b c)] →
    (encode i).toNat = op * 2 ^ 28 + a.val * 2 ^ 6 + b.val * 2 ^ 3 + c.val) ∧
  (∀ (a : Reg) (imm : Imm),
    (encode (.loadi a imm)).toNat = 13 * 2 ^ 28 + a.val * 2 ^ 25 + imm.toNat)

/-- R55: in format S two words that differ only in bits [27:9] decode alike; and a register field that
an operation does not use cannot influence its execution. R55 is marked as the spec's own inference from
R54. -/
def Obligations.UnusedBitsAndFieldsAreIgnored : Prop :=
  (∀ w v : Word, w.toNat / 2 ^ 28 = v.toNat / 2 ^ 28 → w.toNat / 2 ^ 28 ≠ 13 →
    w.toNat % 2 ^ 9 = v.toNat % 2 ^ 9 → decode w = decode v) ∧
  (∀ (a b c a' b' c' : Reg) (s : State),
    exec (.halt a b c) s = exec (.halt a' b' c') s ∧
    exec (.map a b c) s = exec (.map a' b c) s ∧
    exec (.unmap a b c) s = exec (.unmap a' b' c) s ∧
    exec (.output a b c) s = exec (.output a' b' c) s ∧
    exec (.input a b c) s = exec (.input a' b' c) s ∧
    exec (.loadp a b c) s = exec (.loadp a' b c) s)

/-- R57, R151: the words with opcode 14 or 15 are exactly those that decode to no operation, whatever
their other bits hold; executing one takes the InvalidOpcode fault entry, and no other instruction
raises that kind. The two constructors for the illegal rows are the model's (log 8); that the entry
changes nothing but the status is R161, the spec's decisions D7 and D8 (log 11). -/
def Obligations.IllegalOpcodesAloneRaiseInvalidOpcode : Prop :=
  (∀ w : Word, 14 ≤ w.toNat / 2 ^ 28 ↔ (decode w).wellFormed = false) ∧
  (∀ w : Word, w.toNat / 2 ^ 28 = 14 → decode w = .illegal14) ∧
  (∀ w : Word, w.toNat / 2 ^ 28 = 15 → decode w = .illegal15) ∧
  (∀ s : State, exec .illegal14 s = .next { s with status := .faulted .invalidOpcode }) ∧
  (∀ s : State, exec .illegal15 s = .next { s with status := .faulted .invalidOpcode }) ∧
  (∀ (i : Instr) (s t : State), i.wellFormed = true → s.status = .running →
    exec i s = .next t → t.status ≠ .faulted .invalidOpcode)

/-- A few words written out from 30_encoding.md R52, R53 and R61 decode to the instructions they stand
for. -/
def Obligations.WrittenOutWordsDecode : Prop :=
  decode 0x000000E2 = .cmov 3 4 2 ∧ decode 0x1000008C = .sload 2 1 4 ∧
  decode 0x20000065 = .sstore 1 4 5 ∧ decode 0x3ABCDE0A = .add 0 1 2 ∧
  decode 0x8000000B = .map 0 1 3 ∧ decode 0xB0000003 = .input 0 0 3 ∧
  decode 0xC000003B = .loadp 0 7 3 ∧ decode 0xDA000063 = .loadi 5 99 ∧
  decode 0xEFFFFFFF = .illegal14

/-! ### Each instruction: its encoding, where it completes and with what, where it faults, its frame -/

/-- R80, CMOV. -/
def Obligations.CmovMovesWhenTheConditionIsNonzero : Prop :=
  (∀ w a b c, FormatS 0 w a b c → decode w = .cmov a b c) ∧
  ∀ (a b c : Reg) (s : State), ∃ t, exec (.cmov a b c) s = .next t ∧ OnlyRegister a s t ∧
    (s.reg c ≠ 0 → t.reg a = s.reg b) ∧ (s.reg c = 0 → t.reg a = s.reg a)

/-- R81, ADD. -/
def Obligations.AddWritesTheSumModulo : Prop :=
  (∀ w a b c, FormatS 3 w a b c → decode w = .add a b c) ∧
  ∀ (a b c : Reg) (s : State), ∃ t, exec (.add a b c) s = .next t ∧ OnlyRegister a s t ∧
    (t.reg a).toNat = ((s.reg b).toNat + (s.reg c).toNat) % 2 ^ 32

/-- R82, MUL. -/
def Obligations.MulWritesTheProductModulo : Prop :=
  (∀ w a b c, FormatS 4 w a b c → decode w = .mul a b c) ∧
  ∀ (a b c : Reg) (s : State), ∃ t, exec (.mul a b c) s = .next t ∧ OnlyRegister a s t ∧
    (t.reg a).toNat = ((s.reg b).toNat * (s.reg c).toNat) % 2 ^ 32

/-- R83, DIV: the floor of the unsigned quotient; a zero divisor faults for every dividend. -/
def Obligations.DivWritesTheUnsignedQuotient : Prop :=
  (∀ w a b c, FormatS 5 w a b c → decode w = .div a b c) ∧
  ∀ (a b c : Reg) (s : State),
    (s.reg c ≠ 0 → ∃ t, exec (.div a b c) s = .next t ∧ OnlyRegister a s t ∧
      (t.reg a).toNat = (s.reg b).toNat / (s.reg c).toNat) ∧
    (s.reg c = 0 → Raises (.div a b c) s .divisionByZero)

/-- R84, NAND: bit by bit. -/
def Obligations.NandClearsTheCommonBits : Prop :=
  (∀ w a b c, FormatS 6 w a b c → decode w = .nand a b c) ∧
  ∀ (a b c : Reg) (s : State), ∃ t, exec (.nand a b c) s = .next t ∧ OnlyRegister a s t ∧
    ∀ i, i < 32 → ((t.reg a).getLsbD i = false ↔
      (s.reg b).getLsbD i = true ∧ (s.reg c).getLsbD i = true)

/-- R85, LOADI: zero-extended, never sign-extended. -/
def Obligations.LoadiWritesTheZeroExtendedImmediate : Prop :=
  (∀ w a imm, FormatI w a imm → decode w = .loadi a imm) ∧
  ∀ (a : Reg) (imm : Imm) (s : State), ∃ t, exec (.loadi a imm) s = .next t ∧ OnlyRegister a s t ∧
    (t.reg a).toNat = imm.toNat

/-- R90, SLOAD. -/
def Obligations.SloadReadsTheAddressedWord : Prop :=
  (∀ w a b c, FormatS 1 w a b c → decode w = .sload a b c) ∧
  ∀ (a b c : Reg) (s : State) (id off : Word), s.address b c = (id, off) →
    (∀ n, s.lenOf id = some n → off.toNat < n.toNat →
      ∃ t, exec (.sload a b c) s = .next t ∧ OnlyRegister a s t ∧
        s.memRead id off = .ok (t.reg a)) ∧
    (s.lenOf id = none → Raises (.sload a b c) s .invalidSegmentAccess) ∧
    (∀ n, s.lenOf id = some n → n.toNat ≤ off.toNat →
      Raises (.sload a b c) s .invalidSegmentAccess)

/-- R91, SSTORE: the Word at the addressed cell becomes `x[C]`; every other cell of every segment, every
length and every register is as before. -/
def Obligations.SstoreWritesTheAddressedWord : Prop :=
  (∀ w a b c, FormatS 2 w a b c → decode w = .sstore a b c) ∧
  ∀ (a b c : Reg) (s : State) (id off : Word), s.address a b = (id, off) →
    (∀ n, s.lenOf id = some n → off.toNat < n.toNat →
      ∃ t, exec (.sstore a b c) s = .next t ∧ t.memRead id off = .ok (s.reg c) ∧
        (∀ id' off', (id', off') ≠ (id, off) → t.memRead id' off' = s.memRead id' off') ∧
        (∀ id', t.lenOf id' = s.lenOf id') ∧
        SameRegisters s t ∧ SameAllocator s t ∧ SameStreams s t ∧ WentOn s t) ∧
    (s.lenOf id = none → Raises (.sstore a b c) s .invalidSegmentAccess) ∧
    (∀ n, s.lenOf id = some n → n.toNat ≤ off.toNat →
      Raises (.sstore a b c) s .invalidSegmentAccess)

/-- R120, HALT: the status becomes Halted and nothing else changes; no step follows. That `pc` stays is
the spec's decision D7 (log 11). -/
def Obligations.HaltStopsAndChangesNothingElse : Prop :=
  (∀ w a b c, FormatS 7 w a b c → decode w = .halt a b c) ∧
  ∀ (a b c : Reg) (s : State), ∃ t, exec (.halt a b c) s = .next t ∧ t.status = .halted ∧
    t.pc = s.pc ∧ SameRegisters s t ∧ SameMemory s t ∧ SameAllocator s t ∧ SameStreams s t ∧
    t.storageLimit = s.storageLimit ∧ ¬ ∃ u, step t = .next u

/-- R99 with R95, R96 and R104, MAP: a zero-filled segment of `x[C]` Words under the most recently freed
id, or under the counter's when none is free; every other segment is as before. The limit of the counter
is the spec's decision D3 (log 7), the storage check D4 (log 3), the empty segment D19, and all or
nothing on a fault D14. -/
def Obligations.MapCreatesAZeroFilledSegment : Prop :=
  (∀ w a b c, FormatS 8 w a b c → decode w = .map a b c) ∧
  ∀ (a b c : Reg) (s : State),
    (Fits s ((s.reg c).toNat + s.seg.words) → (s.free ≠ [] ∨ s.nextId.toNat ≤ 2 ^ 32 - 2) →
      ∃ t id, exec (.map a b c) s = .next t ∧ t.reg b = id ∧
        (s.free = [] → id = s.nextId ∧ t.nextId.toNat = s.nextId.toNat + 1 ∧ t.free = []) ∧
        (s.free ≠ [] → s.free = id :: t.free ∧ t.nextId = s.nextId) ∧
        t.lenOf id = some (s.reg c) ∧
        (∀ off, off.toNat < (s.reg c).toNat → t.memRead id off = .ok 0) ∧
        (∀ id', id' ≠ id → SameSegment id' s t) ∧
        SameRegistersBut b s t ∧ SameStreams s t ∧ WentOn s t) ∧
    (¬ Fits s ((s.reg c).toNat + s.seg.words) → Raises (.map a b c) s .storageExhausted) ∧
    (Fits s ((s.reg c).toNat + s.seg.words) → s.free = [] → 2 ^ 32 - 2 < s.nextId.toNat →
      Raises (.map a b c) s .idSpaceExhausted)

/-- R100 with R97 and R98, UNMAP: the segment is gone, its id on top of the free stack. -/
def Obligations.UnmapReleasesTheSegment : Prop :=
  (∀ w a b c, FormatS 9 w a b c → decode w = .unmap a b c) ∧
  ∀ (a b c : Reg) (s : State),
    (s.reg c ≠ 0 → s.mapped (s.reg c) = true →
      ∃ t, exec (.unmap a b c) s = .next t ∧ t.mapped (s.reg c) = false ∧
        t.free = s.reg c :: s.free ∧ t.nextId = s.nextId ∧
        (∀ id', id' ≠ s.reg c → SameSegment id' s t) ∧
        SameRegisters s t ∧ SameStreams s t ∧ WentOn s t) ∧
    (s.reg c = 0 → Raises (.unmap a b c) s .unmapReservedSegment) ∧
    (s.reg c ≠ 0 → s.mapped (s.reg c) = false →
      Raises (.unmap a b c) s .invalidSegmentAccess)

/-- R110, OUT: one byte of the register's value; a value above 255 faults and is not truncated. -/
def Obligations.OutputEmitsOneByte : Prop :=
  (∀ w a b c, FormatS 10 w a b c → decode w = .output a b c) ∧
  ∀ (a b c : Reg) (s : State),
    ((s.reg c).toNat ≤ 255 → ∃ t byte, exec (.output a b c) s = .next t ∧
      t.out = s.out ++ [byte] ∧ byte.toNat = (s.reg c).toNat ∧ t.input = s.input ∧
      t.inPos = s.inPos ∧ SameRegisters s t ∧ SameMemory s t ∧ SameAllocator s t ∧ WentOn s t) ∧
    (255 < (s.reg c).toNat → Raises (.output a b c) s .outputRangeError)

/-- R111 with R113 and R114, IN: the next byte zero-extended and consumed, or the all-ones Word at end of
stream and nothing consumed. -/
def Obligations.InputReadsOneByteOrTheSentinel : Prop :=
  (∀ w a b c, FormatS 11 w a b c → decode w = .input a b c) ∧
  ∀ (a b c : Reg) (s : State), ∃ t, exec (.input a b c) s = .next t ∧ SameRegistersBut c s t ∧
    SameMemory s t ∧ SameAllocator s t ∧ t.input = s.input ∧ t.out = s.out ∧ WentOn s t ∧
    (∀ byte : Byte, s.input[s.inPos]? = some byte →
      (t.reg c).toNat = byte.toNat ∧ t.inPos = s.inPos + 1) ∧
    (s.input.length ≤ s.inPos → t.reg c = 0xFFFFFFFF ∧ t.inPos = s.inPos)

/-- R121 with R102, R74 and R104, LOADP: a jump, with a copy of segment `x[B]` into segment 0 first when
`x[B]` is not 0. The storage check is the spec's decision D4 (log 3). -/
def Obligations.LoadpCopiesThenJumps : Prop :=
  (∀ w a b c, FormatS 12 w a b c → decode w = .loadp a b c) ∧
  ∀ (a b c : Reg) (s : State),
    (s.reg b = 0 → ∃ t, exec (.loadp a b c) s = .next t ∧ t.pc = s.reg c ∧ t.status = s.status ∧
      SameRegisters s t ∧ SameMemory s t ∧ SameAllocator s t ∧ SameStreams s t ∧
      t.storageLimit = s.storageLimit) ∧
    (∀ n, s.reg b ≠ 0 → s.lenOf (s.reg b) = some n →
      Fits s (n.toNat + (s.seg.release 0).words) →
      ∃ t, exec (.loadp a b c) s = .next t ∧ t.pc = s.reg c ∧ t.status = s.status ∧
        t.lenOf 0 = some n ∧ (∀ off, t.memRead 0 off = s.memRead (s.reg b) off) ∧
        (∀ id', id' ≠ 0 → SameSegment id' s t) ∧
        SameRegisters s t ∧ SameAllocator s t ∧ SameStreams s t ∧
        t.storageLimit = s.storageLimit) ∧
    (s.reg b ≠ 0 → s.lenOf (s.reg b) = none → Raises (.loadp a b c) s .invalidSegmentAccess) ∧
    (∀ n, s.reg b ≠ 0 → s.lenOf (s.reg b) = some n →
      ¬ Fits s (n.toNat + (s.seg.release 0).words) → Raises (.loadp a b c) s .storageExhausted)

/-! ### The execution cycle (40_execution_cycle.md) -/

/-- R70, R72: a Running core whose `pc` is below the length of segment 0 runs the instruction decoded
from the Word there; each instruction's own statement holds the advance of `pc` (R78). -/
def Obligations.StepRunsTheDecodedInstruction : Prop :=
  ∀ (s : State) (n : Word), s.status = .running → s.lenOf 0 = some n → s.pc.toNat < n.toNat →
    ∃ w, s.memRead 0 s.pc = .ok w ∧ step s = exec (decode w) s

/-- R38, R71, R157: a fetch at or beyond the end of segment 0 takes the OutOfBoundsFetch entry, whatever
the Word at `pc` would be. That `pc` stays at the out-of-range index and all else is as before is R161,
the spec's decisions D7 and D8 (log 11). -/
def Obligations.FetchBeyondTheEndFaults : Prop :=
  ∀ (s : State) (n : Word), s.status = .running → s.lenOf 0 = some n → n.toNat ≤ s.pc.toNat →
    step s = .next { s with status := .faulted .outOfBoundsFetch }

/-- R75: no step is taken from a terminal state; R13, R70: from Running one always is. That a fault is a
next state and that a step from a terminal state is none is the model's form (log 6). -/
def Obligations.StepIsTakenExactlyWhileRunning : Prop :=
  ∀ s : State, (∃ t, step s = .next t) ↔ s.status = .running

/-- R161: a step that ends in a fault has changed nothing but the status. Precise faults are the spec's
decisions D7, D8 and D14 (log 11). -/
def Obligations.FaultsChangeOnlyTheStatus : Prop :=
  ∀ (s t : State) (k : FaultKind), step s = .next t → t.status = .faulted k →
    t = { s with status := .faulted k }

/-- R13: Halted is entered only by the Halt instruction; a fault kind is entered only as that of a fetch
at or beyond the end of segment 0 (or of an unmapped segment 0, which no run reaches: log 10) or as one
of the decoded instruction's; ProgramLoadError never (60_exceptions.md R158). That no step raises
ProgramLoadError is the spec's decision D18; that a halting or faulting step changes only the status is
R120 and R161, its decisions D7 and D8 (log 11); R171, whose table `tabledFaults` is, is its own
inference. -/
def Obligations.TerminalStatesAreEnteredOnlyByHaltAndFaults : Prop :=
  ∀ s t : State, step s = .next t →
    (t.status = .halted →
      ∃ w a b c, s.memRead 0 s.pc = .ok w ∧ decode w = .halt a b c ∧
        t = { s with status := .halted }) ∧
    (∀ k, t.status = .faulted k → k ≠ .programLoadError ∧
      ((k = .outOfBoundsFetch ∧ ∀ n, s.lenOf 0 = some n → n.toNat ≤ s.pc.toNat) ∨
        ∃ w, s.memRead 0 s.pc = .ok w ∧ Raises (decode w) s k ∧ k ∈ tabledFaults (decode w)))

/-- R171: after decode, the kinds an instruction can raise are exactly those of the table. R171 is
marked as the spec's own inference; StorageExhausted is its decision D4. -/
def Obligations.EachInstructionRaisesExactlyItsTabledFaults : Prop :=
  ∀ (i : Instr) (k : FaultKind),
    (∃ s : State, s.status = .running ∧ Raises i s k) ↔ k ∈ tabledFaults i

/-- R73, R74: `pc` advances by exactly one Word, without wrapping, after every step that stays Running,
but after Load Program, where it is `x[C]`; a halting or faulting step leaves it. That a halting or
faulting step leaves `pc` is the spec's decision D7 (log 11). -/
def Obligations.ProgramCounterMovesByOneOrByLoadProgram : Prop :=
  ∀ s t : State, step s = .next t →
    (t.status = .running → ∃ w, s.memRead 0 s.pc = .ok w ∧
      ((∃ a b c, decode w = .loadp a b c ∧ t.pc = s.reg c) ∨
        ((∀ a b c, decode w ≠ .loadp a b c) ∧ t.pc.toNat = s.pc.toNat + 1))) ∧
    (t.status ≠ .running → t.pc = s.pc)

/-- 10_state.md, the table after R11: a register changes only where it is the instruction's destination.
The table is the spec's own collection of the instruction rules. -/
def Obligations.RegistersChangeOnlyAtTheDestination : Prop :=
  ∀ (i : Instr) (s t : State) (r : Reg), exec i s = .next t → t.reg r ≠ s.reg r →
    destination i = some r

/-- 10_state.md, the table after R11: a register that an instruction does not read cannot influence
anything it does. With another Word in it, every other register, `pc`, the status and the rest of the
state come out the same; the register itself too where the instruction writes it, and otherwise it keeps
that other Word. The table is the spec's own collection of the instruction rules; the statement is the
model's reading of its 'reads' column. -/
def Obligations.UnreadRegistersDoNotMatter : Prop :=
  ∀ (i : Instr) (s t : State) (r : Reg) (v : Word), r ∉ sources i → exec i s = .next t →
    ∃ t', exec i (s.setReg r v) = .next t' ∧ (∀ q, q ≠ r → t'.reg q = t.reg q) ∧
      (Writes i s r → t'.reg r = t.reg r) ∧ (¬ Writes i s r → t'.reg r = v) ∧
      t'.pc = t.pc ∧ t'.status = t.status ∧ t'.seg = t.seg ∧ t'.storageLimit = t.storageLimit ∧
      SameAllocator t t' ∧ SameStreams t t'

/-- R42: a store into segment 0 is seen by the next fetch of that index, also when it is the very next
one; and after Load Program the next fetch reads the copied contents. R42 is marked as the spec's own
inference; its decision is D24. -/
def Obligations.TheNextFetchSeesTheStoredProgram : Prop :=
  (∀ (a b c : Reg) (s t : State), s.status = .running → s.reg a = 0 →
    exec (.sstore a b c) s = .next t → t.status = .running →
    (t.setPc (s.reg b)).fetch = .ok (s.reg c) ∧
    (s.reg b = s.pc + 1 → step t = exec (decode (s.reg c)) t)) ∧
  (∀ (a b c : Reg) (s t : State) (w : Word), s.status = .running → s.reg b ≠ 0 →
    exec (.loadp a b c) s = .next t → t.status = .running →
    s.memRead (s.reg b) (s.reg c) = .ok w → step t = exec (decode w) t)

/-! ### Memory and the segment manager (20_memory.md, 43_segment_allocation.md) -/

/-- R35, R36, R37: a read and a write succeed exactly when the id is mapped and the offset is below the
length, and fail with InvalidSegmentAccess. The order of the two checks is the spec's decision D13 and
cannot be observed. -/
def Obligations.AccessSucceedsExactlyWithinAMappedSegment : Prop :=
  ∀ (s : State) (id off v : Word),
    ((∃ w, s.memRead id off = .ok w) ↔ ∃ n, s.lenOf id = some n ∧ off.toNat < n.toNat) ∧
    ((∃ t, s.memWrite id off v = .ok t) ↔ ∃ n, s.lenOf id = some n ∧ off.toNat < n.toNat) ∧
    (∀ k, s.memRead id off = .error k → k = .invalidSegmentAccess) ∧
    (∀ k, s.memWrite id off v = .error k → k = .invalidSegmentAccess)

/-- R105: MAP adds exactly one binding, of `x[C]` Words at the id that the allocator gives (the top of
the free stack, else the counter), which was unmapped before in every state that keeps the invariants;
UNMAP removes exactly one, that of `x[C]`; Load Program rebinds id 0 only and leaves the allocator;
Segment Store changes one Word inside a binding; a MAP or UNMAP that faults, and everything else, leave
the table, the counter and the free stack as they are. R105 is marked as the spec's own inference. -/
def Obligations.OnlyFourInstructionsTouchTheTable : Prop :=
  ∀ (i : Instr) (s t : State), exec i s = .next t →
    (∀ a b c, i = .map a b c →
      (∀ id u, s.allocateId = .ok (id, u) → Fits s ((s.reg c).toNat + s.seg.words) →
        id = s.free.headD s.nextId ∧ (s.Inv → s.mapped id = false) ∧ t.lenOf id = some (s.reg c) ∧
        (∀ id', id' ≠ id → SameSegment id' s t) ∧ SameAllocator u t) ∧
      ((∀ id u, s.allocateId ≠ .ok (id, u)) ∨ ¬ Fits s ((s.reg c).toNat + s.seg.words) →
        t.seg = s.seg ∧ SameAllocator s t)) ∧
    (∀ a b c, i = .unmap a b c →
      (∀ id', id' ≠ s.reg c → SameSegment id' s t) ∧
      (s.reg c ≠ 0 → s.mapped (s.reg c) = true → t.mapped (s.reg c) = false ∧
        t.free = s.reg c :: s.free ∧ t.nextId = s.nextId) ∧
      (s.reg c = 0 ∨ s.mapped (s.reg c) = false → t.seg = s.seg ∧ SameAllocator s t)) ∧
    (∀ a b c, i = .loadp a b c → SameAllocator s t ∧ ∀ id', id' ≠ 0 → SameSegment id' s t) ∧
    (∀ a b c, i = .sstore a b c → SameAllocator s t ∧
      (∀ id', t.lenOf id' = s.lenOf id') ∧
      ∀ id' off', (id', off') ≠ s.address a b → t.memRead id' off' = s.memRead id' off') ∧
    ((∀ a b c, i ≠ .map a b c ∧ i ≠ .unmap a b c ∧ i ≠ .loadp a b c ∧ i ≠ .sstore a b c) →
      t.seg = s.seg ∧ SameAllocator s t)

/-- R17: the counter changes only when MAP mints an id, and then by exactly 1; the id minted is its old
value and at most ID_MAX. The limit is the spec's decision D3 (log 7). -/
def Obligations.CounterGrowsByOneOnlyWhenMapMints : Prop :=
  ∀ s t : State, step s = .next t → t.nextId ≠ s.nextId →
    s.free = [] ∧ t.nextId.toNat = s.nextId.toNat + 1 ∧ s.nextId.toNat ≤ 2 ^ 32 - 2 ∧
      ∃ w a b c, s.memRead 0 s.pc = .ok w ∧ decode w = .map a b c ∧ t.reg b = s.nextId

/-- R95, R99, R19 (f): in a state that keeps the invariants, the id MAP returns is not 0, not the
all-ones sentinel, and not mapped. R19 is marked as the spec's own inference; the sentinel's exclusion
is its decision D3 (log 7). -/
def Obligations.MapReturnsAnUnusedId : Prop :=
  ∀ (a b c : Reg) (s t : State), s.Inv → s.status = .running → exec (.map a b c) s = .next t →
    t.status = .running →
    t.reg b ≠ 0 ∧ t.reg b ≠ 0xFFFFFFFF ∧ s.mapped (t.reg b) = false ∧ t.mapped (t.reg b) = true

/-- R103: ids freed one after another come back in the reverse of the order they were freed, before any
new id is minted, and leave the counter and the rest of the stack as they were. One part of R103,
without its sentence on minting; no STORAGE_LIMIT, so that every `create` succeeds. -/
def Obligations.FreedIdsComeBackLastFreedFirst : Prop :=
  ∀ (s t : State) (ids lens : List Word), s.storageLimit = none → lens.length = ids.length →
    unmapAll ids s = .ok t →
    ∃ u, mapAll lens t = .ok (ids.reverse, u) ∧ u.free = s.free ∧ u.nextId = s.nextId

/-- R44: after UNMAP every access to the id faults, and the segment created there next is new,
zero-filled and of the new length. R44's 'until' is stated of the state right after the UNMAP and of the
next `create`; that this `create` returns this very id is R95, R97 and R103 (43_segment_allocation.md).
-/
def Obligations.UnmappedIdFaultsUntilMappedAgain : Prop :=
  ∀ (a b c : Reg) (s t : State), s.status = .running → exec (.unmap a b c) s = .next t →
    t.status = .running →
    (∀ off v, t.memRead (s.reg c) off = .error .invalidSegmentAccess ∧
      t.memWrite (s.reg c) off v = .error .invalidSegmentAccess) ∧
    (∀ n id u, t.createSegment n = .ok (id, u) →
      id = s.reg c ∧ u.lenOf id = some n ∧ ∀ off, off.toNat < n.toNat → u.memRead id off = .ok 0)

/-- R15: the length of the segment bound to a non-zero id never changes while the id stays mapped; the
length of segment 0 changes only at a Load Program. One part of R15. -/
def Obligations.SegmentLengthsStayFixed : Prop :=
  ∀ s t : State, s.Inv → step s = .next t →
    (∀ id n m, id ≠ 0 → s.lenOf id = some n → t.lenOf id = some m → m = n) ∧
    (t.lenOf 0 ≠ s.lenOf 0 →
      ∃ w a b c, s.memRead 0 s.pc = .ok w ∧ decode w = .loadp a b c)

/-- R104: under a finite STORAGE_LIMIT no step takes the Words in use past it. The limit is the spec's
decision D4 (log 3). -/
def Obligations.StorageLimitIsNeverPassed : Prop :=
  ∀ (s t : State) (l : Nat), s.seg.wf → s.storageLimit = some l → s.seg.words ≤ l →
    step s = .next t → t.storageLimit = some l ∧ t.seg.words ≤ l

/-! ### The streams (10_state.md R20, R21, 44_input_output.md) -/

/-- R20, R21: the input position moves, by one, only at an Input that returns a byte; the output trace
only grows, by one byte, only at an Output; the stream itself is fixed. The streams' nature is the
spec's decisions D9 and D10 (logs 4 and 14). -/
def Obligations.StreamsMoveOnlyByInputAndOutput : Prop :=
  ∀ s t : State, step s = .next t →
    t.input = s.input ∧
    (t.inPos ≠ s.inPos → t.inPos = s.inPos + 1 ∧ s.inPos < s.input.length ∧
      ∃ w a b c, s.memRead 0 s.pc = .ok w ∧ decode w = .input a b c) ∧
    (t.out ≠ s.out → ∃ byte, t.out = s.out ++ [byte] ∧
      ∃ w a b c, s.memRead 0 s.pc = .ok w ∧ decode w = .output a b c ∧
        (s.reg c).toNat = byte.toNat)

/-- R21: nothing in the core reads the output back. With another trace in its place, the step does the
same and appends the same bytes. R21 rests on the spec's decision D10 (log 14). -/
def Obligations.EmittedBytesAreNeverReadBack : Prop :=
  ∀ (s t : State) (o : List Byte), step s = .next t →
    step { s with out := o } = .next { t with out := o ++ t.out.drop s.out.length }

/-- R113, R20: a byte once consumed is never read again. With other bytes in the consumed part of the
stream, the step does the same. R20 and R113 rest on the spec's decision D9 (log 4). -/
def Obligations.ConsumedInputIsNeverReadAgain : Prop :=
  ∀ (s t : State) (p : List Byte), p.length = s.inPos → s.inPos ≤ s.input.length →
    step s = .next t →
    step { s with input := p ++ s.input.drop s.inPos }
      = .next { t with input := p ++ s.input.drop s.inPos }

/-! ### Invariants (10_state.md R19) -/

/-- R16, R17, R19, R20: every step keeps the invariants of Safety.lean (the canonical form of the memory
among them is the model's own choice, log 1). -/
def Obligations.StepKeepsTheInvariant : Prop :=
  ∀ s t : State, s.Inv → step s = .next t → t.Inv

/-- R26: the state right after reset meets the invariants, for every image, stream, register content and
storage limit. The canonical form of the memory is the model's choice (log 1); the rest is the spec's
own inference R19 at the state of R26. -/
def Obligations.BootMeetsTheInvariant : Prop :=
  ∀ (regs : Vector Word 8) (limit : Option Nat) (prog : List Word) (input : List Byte),
    prog.length < 2 ^ 32 → (State.boot regs limit prog input).Inv

/-- The canonical form of the memory, the model's own choice (log 1), is kept by every step from every
canonical memory, whatever else the state holds. -/
def Obligations.StepKeepsTheMemoryCanonical : Prop :=
  ∀ s t : State, s.seg.wf → step s = .next t → t.seg.wf

/-- R19, (a) to (f), in every state reached from reset, whatever the program and the input. R19 is
marked as the spec's own inference. -/
def Obligations.ReachableStatesKeepTheAllocatorSound : Prop :=
  ∀ (regs : Vector Word 8) (limit : Option Nat) (prog : List Word) (input : List Byte) (s : State),
    prog.length < 2 ^ 32 → Reaches (State.boot regs limit prog input) s →
    s.mapped 0 = true ∧
    (∀ id ∈ s.free, s.mapped id = false ∧ id ≠ 0 ∧ s.free.count id = 1) ∧
    (∀ id : Word, ¬ (s.mapped id = true ∧ id ∈ s.free)) ∧
    (∀ id : Word, id ≠ 0 →
      ((s.mapped id = true ∨ id ∈ s.free) ↔ 1 ≤ id.toNat ∧ id.toNat ≤ s.nextId.toNat - 1)) ∧
    (∀ id : Word, s.nextId.toNat ≤ id.toNat → s.mapped id = false) ∧
    (s.mapped 0xFFFFFFFF = false ∧ 0xFFFFFFFF ∉ s.free) ∧
    (∀ id t, s.allocateId = .ok (id, t) → s.mapped id = false)

/-! ### Reset and the host (10_state.md R26, 70_reset_and_hazards.md, 50_interfaces.md) -/

/-- R26: the value of every piece of state right after reset, for every argument of reset. The table of
R26 marks rows as the spec's own: the input position is its decision D9 (log 4), the output D10 (log
14), the registers D1 (log 2; here they hold REG_RESET, whatever it is), the empty free stack its
inference; the bound on the image is D5 (log 12). -/
def Obligations.ResetEstablishesTheTabledState : Prop :=
  ∀ (regs : Vector Word 8) (limit : Option Nat) (prog : List Word) (input : List Byte) (s : State),
    prog.length < 2 ^ 32 → s = State.boot regs limit prog input →
    s.status = .running ∧ s.pc = 0 ∧
    s.lenOf 0 = some (BitVec.ofNat 32 prog.length) ∧
    (∀ (i : Nat) (h : i < prog.length), s.memRead 0 (BitVec.ofNat 32 i) = .ok prog[i]) ∧
    (∀ id, id ≠ 0 → s.mapped id = false) ∧
    s.nextId = 1 ∧ s.free = [] ∧ (∀ r : Reg, s.reg r = regs[r.val]) ∧
    s.inPos = 0 ∧ s.input = input ∧ s.out = []

/-- R27, R142: the host's reset leaves every state, terminal ones too, for the state that reset
establishes for the given image and stream, of which nothing depends on the old state but STORAGE_LIMIT;
it is Running and keeps the invariants. An image of 2^32 Words or more is refused (log 12). That all
registers are then 0 is the spec's decision D1 (log 2). Reset of a core that has run is the spec's
decision D25. -/
def Obligations.HostResetForgetsThePreviousRun : Prop :=
  ∀ (s s' : State) (prog : List Word) (input : List Byte),
    (prog.length < 2 ^ 32 → s.storageLimit = s'.storageLimit →
      ∃ t, hostReset s prog input = .next t ∧ hostReset s' prog input = .next t ∧
        t = State.boot (Vector.replicate 8 0) s.storageLimit prog input ∧ t.Inv ∧
        t.status = .running ∧ ∀ r, t.reg r = 0) ∧
    (2 ^ 32 ≤ prog.length → hostReset s prog input = .refused .imageTooLong)

/-- R32, R181, R158: a program file of whole Words makes the image whose Word `i` is its bytes `4i` to
`4i + 3`, the most significant first; any other length is a ProgramLoadError. The loader stands outside
the core (00_scope.md); this is R32's sentence on the program file. -/
def Obligations.LoaderAssemblesBigEndianWords : Prop :=
  ∀ bytes : List Byte,
    (bytes.length % 4 = 0 → ∃ ws, assemble bytes = .ok ws ∧ ws.length = bytes.length / 4 ∧
      ∀ (i : Nat) (b0 b1 b2 b3 : Byte),
        bytes[4 * i]? = some b0 → bytes[4 * i + 1]? = some b1 → bytes[4 * i + 2]? = some b2 →
        bytes[4 * i + 3]? = some b3 →
        ∃ w, ws[i]? = some w ∧
          w.toNat = b0.toNat * 2 ^ 24 + b1.toNat * 2 ^ 16 + b2.toNat * 2 ^ 8 + b3.toNat) ∧
    (bytes.length % 4 ≠ 0 → assemble bytes = .error .programLoadError)

/-- R140, R150: the status port tells every two statuses apart, and the fault code is 0 exactly when
there is no fault. The encoding is the spec's suggestion D20 with the codes of its decision D11. -/
def Obligations.StatusPortTellsStatusesApart : Prop :=
  (∀ p q : Status, statusPort p = statusPort q → p = q) ∧
  (∀ p : Status, (statusPort p).2 = 0 ↔ ∀ k, p ≠ .faulted k)
end

