-- ==== Sys2Proof/Laws/Sparse.lean ====
section
/-! SUPPORT. The laws of sparse maps: what a key reads after a change, and that every change keeps the
canonical form. The reading laws hold for every list, canonical or not. -/

namespace Sys2Proof.Machine.Sparse

variable {α : Type}

@[simp] theorem find_nil (k : Nat) : find k ([] : List (Nat × α)) = none := rfl

theorem find_cons (k j : Nat) (v : α) (l : List (Nat × α)) :
    find k ((j, v) :: l) = if j = k then some v else find k l := rfl

/-- What any key reads after a write. -/
theorem find_put (k q : Nat) (v : α) (l : List (Nat × α)) :
    find q (put k v l) = if q = k then some v else find q l := by
  induction l with
  | nil => simp only [put, find_cons, find_nil, @eq_comm _ q k]
  | cons e l ih =>
    obtain ⟨j, u⟩ := e
    by_cases hkj : k < j
    · simp only [put, if_pos hkj, find_cons, @eq_comm _ q k]
    · by_cases hjk : j = k
      · subst hjk
        simp only [put, if_neg hkj, if_true, find_cons, @eq_comm _ j q]
        by_cases hq : q = j <;> simp [hq]
      · simp only [put, hkj, hjk, if_false, find_cons, ih]
        by_cases hq : j = q
        · rw [if_pos hq, if_pos hq, if_neg (by omega)]
        · rw [if_neg hq, if_neg hq]

/-- What any key reads after a removal. -/
theorem find_drop (k q : Nat) (l : List (Nat × α)) :
    find q (drop k l) = if q = k then none else find q l := by
  induction l with
  | nil => simp [drop]
  | cons e l ih =>
    obtain ⟨j, u⟩ := e
    unfold drop at ih ⊢
    by_cases hj : j = k
    · simp only [List.filter_cons, hj, bne_self_eq_false, Bool.false_eq_true, if_false, ih, find_cons]
      split
      · rfl
      · rw [if_neg (by omega)]
    · have : (j != k) = true := by simpa using hj
      simp only [List.filter_cons, this, if_true, find_cons, ih]
      split
      · rw [if_neg (by omega)]
      · rfl

/-- A listed value is found only if the pair is in the list. -/
theorem mem_of_find {k : Nat} {v : α} {l : List (Nat × α)} (h : find k l = some v) : (k, v) ∈ l := by
  induction l with
  | nil => simp at h
  | cons e l ih =>
    obtain ⟨j, u⟩ := e
    rw [find_cons] at h
    split at h
    · next hj => cases h; subst hj; simp
    · exact List.mem_cons_of_mem _ (ih h)

/-- In a canonical map every pair of the list is found. -/
theorem find_of_mem {k : Nat} {v : α} {l : List (Nat × α)} (hl : Rising l) (h : (k, v) ∈ l) :
    find k l = some v := by
  induction l with
  | nil => simp at h
  | cons e l ih =>
    obtain ⟨j, u⟩ := e
    rw [Rising, List.pairwise_cons] at hl
    rw [find_cons]
    rcases List.mem_cons.1 h with h | h
    · cases h; simp
    · have := hl.1 _ h
      rw [if_neg (by dsimp at this; omega)]
      exact ih hl.2 h

/-- The pairs of a written map: the new one, and old ones. -/
theorem mem_put {k : Nat} {v : α} {e : Nat × α} {l : List (Nat × α)} (h : e ∈ put k v l) :
    e = (k, v) ∨ e ∈ l := by
  induction l with
  | nil => simpa [put] using h
  | cons d l ih =>
    obtain ⟨j, u⟩ := d
    unfold put at h
    split at h
    · simpa using h
    · split at h
      · rcases List.mem_cons.1 h with h | h
        · exact .inl h
        · exact .inr (List.mem_cons_of_mem _ h)
      · rcases List.mem_cons.1 h with h | h
        · exact .inr (by simp [h])
        · exact (ih h).imp id (List.mem_cons_of_mem _)

theorem mem_of_mem_drop {k : Nat} {e : Nat × α} {l : List (Nat × α)} (h : e ∈ drop k l) :
    e ∈ l ∧ e.1 ≠ k := by
  simpa [drop] using h

/-- A write keeps the canonical form. -/
theorem rising_put {k : Nat} {v : α} {l : List (Nat × α)} (hl : Rising l) : Rising (put k v l) := by
  induction l with
  | nil => simp [put]
  | cons d l ih =>
    obtain ⟨j, u⟩ := d
    rw [Rising, List.pairwise_cons] at hl
    unfold put
    split
    · next hk =>
      refine List.pairwise_cons.2 ⟨fun e he => ?_, List.pairwise_cons.2 hl⟩
      rcases List.mem_cons.1 he with he | he
      · simpa [he] using hk
      · exact lt_trans hk (hl.1 e he)
    · split
      · next hjk => subst hjk; exact List.pairwise_cons.2 hl
      · next hk hjk =>
        refine List.pairwise_cons.2 ⟨fun e he => ?_, ih hl.2⟩
        rcases mem_put he with he | he
        · subst he; dsimp; omega
        · exact hl.1 e he

/-- A removal keeps the canonical form. -/
theorem rising_drop {k : Nat} {l : List (Nat × α)} (hl : Rising l) : Rising (drop k l) :=
  List.Pairwise.filter _ hl

/-- Two canonical maps that read alike at every key are the same list. -/
theorem ext_of_rising {l m : List (Nat × α)} (hl : Rising l) (hm : Rising m)
    (h : ∀ k, find k l = find k m) : l = m := by
  have key : ∀ e, e ∈ l ↔ e ∈ m := fun e =>
    ⟨fun he => mem_of_find ((h e.1) ▸ find_of_mem hl he),
     fun he => mem_of_find ((h e.1).symm ▸ find_of_mem hm he)⟩
  have nd : ∀ {l : List (Nat × α)}, Rising l → l.Nodup := fun h =>
    h.imp fun {a b} hab e => by subst e; omega
  exact List.Perm.eq_of_pairwise (fun a b _ _ h1 h2 => by omega) hl hm
    ((List.perm_ext_iff_of_nodup (nd hl) (nd hm)).2 key)

end Sys2Proof.Machine.Sparse
end

