-- ==== Sys2Proof/Laws/Memory.lean ====
section
/-! SUPPORT. The laws of segments and of the segment table: what is read after each change, that every
memory operation keeps the canonical form `Memory.wf`, and what each change does to the number of Words
in use. -/

namespace Sys2Proof.Machine

/-! ### One segment -/

@[simp] theorem Segment.write_len (g : Segment) (off v : Word) : (g.write off v).len = g.len := rfl

@[simp] theorem Segment.zeros_len (n : Word) : (Segment.zeros n).len = n := rfl

@[simp] theorem Segment.zeros_read (n off : Word) : (Segment.zeros n).read off = 0 := rfl

theorem Segment.read_write (g : Segment) (off q v : Word) :
    (g.write off v).read q = if q = off then v else g.read q := by
  have hq : (q.toNat = off.toNat) ↔ q = off := BitVec.toNat_inj
  unfold Segment.write Segment.read
  split
  · next hv => subst hv; simp only [Sparse.find_drop, hq]; split <;> rfl
  · simp only [Sparse.find_put, hq]; split <;> rfl

theorem Segment.wf_zeros (n : Word) : (Segment.zeros n).wf := by
  simp [Segment.zeros, Segment.wf, Sparse.Rising]

/-- A store within the bound keeps the canonical form. -/
theorem Segment.wf_write {g : Segment} (h : g.wf) {off : Word} (hoff : off.toNat < g.len.toNat)
    (v : Word) : (g.write off v).wf := by
  unfold Segment.write
  split
  · exact ⟨Sparse.rising_drop h.1, fun c hc => h.2 c (Sparse.mem_of_mem_drop hc).1⟩
  · next hv =>
    refine ⟨Sparse.rising_put h.1, fun c hc => ?_⟩
    rcases Sparse.mem_put hc with hc | hc
    · subst hc; exact ⟨hoff, hv⟩
    · exact h.2 c hc

/-! ### A segment made from a list of Words -/

theorem cellsFrom_mem {i : Nat} {ws : List Word} {c : Nat × Word} (h : c ∈ cellsFrom i ws) :
    i ≤ c.1 ∧ c.1 < i + ws.length ∧ c.2 ≠ Segment.unlisted := by
  induction ws generalizing i with
  | nil => simp [cellsFrom] at h
  | cons w ws ih =>
    unfold cellsFrom at h
    split at h
    · have := ih h; simp only [List.length_cons]; exact ⟨by omega, by omega, this.2.2⟩
    · next hw =>
      rcases List.mem_cons.1 h with h | h
      · subst h; simp only [List.length_cons]; exact ⟨le_refl _, by omega, hw⟩
      · have := ih h; simp only [List.length_cons]; exact ⟨by omega, by omega, this.2.2⟩

theorem cellsFrom_rising (i : Nat) (ws : List Word) : Sparse.Rising (cellsFrom i ws) := by
  induction ws generalizing i with
  | nil => simp [cellsFrom]
  | cons w ws ih =>
    unfold cellsFrom
    split
    · exact ih _
    · exact List.pairwise_cons.2 ⟨fun e he => by have := cellsFrom_mem he; dsimp; omega, ih _⟩

theorem cellsFrom_find (i k : Nat) (ws : List Word) :
    (Sparse.find (i + k) (cellsFrom i ws)).getD Segment.unlisted
      = ws[k]?.getD Segment.unlisted := by
  induction ws generalizing i k with
  | nil => simp [cellsFrom]
  | cons w ws ih =>
    unfold cellsFrom
    cases k with
    | zero =>
      split
      · next hw =>
        cases hf : Sparse.find (i + 0) (cellsFrom (i + 1) ws) with
        | none => simp [hw]
        | some v => have := cellsFrom_mem (Sparse.mem_of_find hf); dsimp at this; omega
      · simp [Sparse.find_cons]
    | succ k =>
      have e : i + (k + 1) = i + 1 + k := by omega
      split
      · rw [e, ih]; simp
      · rw [Sparse.find_cons, if_neg (by omega), e, ih]; simp

theorem Segment.read_ofWords (ws : List Word) (off : Word) :
    (Segment.ofWords ws).read off = ws[off.toNat]?.getD 0 := by
  have := cellsFrom_find 0 off.toNat ws
  rw [Nat.zero_add] at this
  exact this

theorem Segment.ofWords_len {ws : List Word} (h : ws.length < 2 ^ 32) :
    (Segment.ofWords ws).len.toNat = ws.length := by
  simp only [Segment.ofWords, BitVec.toNat_ofNat]
  exact Nat.mod_eq_of_lt h

theorem Segment.wf_ofWords {ws : List Word} (h : ws.length < 2 ^ 32) :
    (Segment.ofWords ws).wf := by
  refine ⟨cellsFrom_rising 0 ws, fun c hc => ?_⟩
  have := cellsFrom_mem hc
  rw [Segment.ofWords_len h]
  exact ⟨by omega, this.2.2⟩

/-! ### The segment table -/

namespace Memory

variable (m : Memory)

theorem segment_register (id q : Word) (g : Segment) :
    segment (m.register id g) q = if q = id then some g else segment m q := by
  have hq : (q.toNat = id.toNat) ↔ q = id := BitVec.toNat_inj
  simp only [segment, register, Sparse.find_put, hq]

theorem segment_release (id q : Word) :
    segment (m.release id) q = if q = id then none else segment m q := by
  have hq : (q.toNat = id.toNat) ↔ q = id := BitVec.toNat_inj
  simp only [segment, release, Sparse.find_drop, hq]

variable {m}

theorem wf_register (h : wf m) (id : Word) {g : Segment} (hg : g.wf) : wf (m.register id g) := by
  refine ⟨Sparse.rising_put h.1, fun e he => ?_⟩
  rcases Sparse.mem_put he with he | he
  · subst he; exact ⟨id.isLt, hg⟩
  · exact h.2 e he

theorem wf_release (h : wf m) (id : Word) : wf (m.release id) :=
  ⟨Sparse.rising_drop h.1, fun e he => h.2 e (Sparse.mem_of_mem_drop he).1⟩

theorem wf_segment (h : wf m) {id : Word} {g : Segment} (hg : segment m id = some g) : g.wf :=
  (h.2 _ (Sparse.mem_of_find hg)).2

/-- The memory right after reset is canonical. -/
theorem wf_image {ws : List Word} (h : ws.length < 2 ^ 32) : wf [(0, Segment.ofWords ws)] := by
  refine ⟨by simp [Sparse.Rising], fun e he => ?_⟩
  rw [List.mem_singleton] at he
  subst he
  exact ⟨by norm_num, Segment.wf_ofWords h⟩

/-- Two canonical tables with the same segment at every id are the same table. -/
theorem ext_of_wf {n : Memory} (hm : wf m) (hn : wf n)
    (h : ∀ id, segment m id = segment n id) : m = n := by
  refine Sparse.ext_of_rising hm.1 hn.1 fun k => ?_
  have small : ∀ {l : Memory}, wf l → ¬ k < 2 ^ 32 → Sparse.find k l = none := by
    intro l hl hk
    cases hf : Sparse.find k l with
    | none => rfl
    | some v => exact absurd (hl.2 _ (Sparse.mem_of_find hf)).1 hk
  by_cases hk : k < 2 ^ 32
  · have := h (BitVec.ofNat 32 k)
    simp only [segment, BitVec.toNat_ofNat, Nat.mod_eq_of_lt hk] at this
    exact this
  · rw [small hm hk, small hn hk]

/-! ### The number of Words in use (43_segment_allocation.md R104) -/

theorem words_cons (e : Nat × Segment) (m : Memory) :
    words (e :: m) = e.2.len.toNat + words m := by
  simp [words]

/-- Unmapping an id takes its segment's length off the sum. -/
theorem words_drop {k : Nat} (h : Sparse.Rising m) :
    words (Sparse.drop k m) + ((Sparse.find k m).map (·.len.toNat)).getD 0 = words m := by
  induction m with
  | nil => simp [words, Sparse.drop]
  | cons e m ih =>
    obtain ⟨j, g⟩ := e
    rw [Sparse.Rising, List.pairwise_cons] at h
    by_cases hj : j = k
    · subst hj
      have hd : Sparse.drop j ((j, g) :: m) = m := by
        simp only [Sparse.drop, List.filter_cons, bne_self_eq_false, Bool.false_eq_true, if_false]
        refine List.filter_eq_self.2 fun e he => ?_
        have := h.1 e he
        simp only [bne_iff_ne, ne_eq]
        dsimp at this
        omega
      rw [hd, Sparse.find_cons, if_pos rfl, words_cons]
      simp [Nat.add_comm]
    · have hd : Sparse.drop k ((j, g) :: m) = (j, g) :: Sparse.drop k m := by
        have : (j != k) = true := by simpa using hj
        simp [Sparse.drop, this]
      rw [hd, Sparse.find_cons, if_neg hj, words_cons, words_cons, ← ih h.2]
      omega

/-- Mapping an id puts its new segment's length in place of the old one's. -/
theorem words_put {k : Nat} {g : Segment} (h : Sparse.Rising m) :
    words (Sparse.put k g m) = g.len.toNat + words (Sparse.drop k m) := by
  have hd : Sparse.drop k (Sparse.put k g m) = Sparse.drop k m :=
    Sparse.ext_of_rising (Sparse.rising_drop (Sparse.rising_put h)) (Sparse.rising_drop h) fun q => by
      simp only [Sparse.find_drop, Sparse.find_put]
      split
      · rfl
      · rfl
  have := words_drop (m := Sparse.put k g m) (k := k) (Sparse.rising_put h)
  rw [hd, Sparse.find_put, if_pos rfl] at this
  simp only [Option.map_some, Option.getD_some] at this
  omega

end Memory

end Sys2Proof.Machine
end

