-- ==== Sys2Proof/Laws/State.lean ====
section
/-! SUPPORT. One lemma for each field of State and each update of it, and what the register bank reads
after each update; no later proof unfolds a record update. -/

namespace Sys2Proof.Machine.State

variable (s : State)

/-! ### setReg -/

@[simp] theorem setReg_x (r : Reg) (v : Word) : (s.setReg r v).x = s.x.set r.val v := rfl
@[simp] theorem setReg_pc (r : Reg) (v : Word) : (s.setReg r v).pc = s.pc := rfl
@[simp] theorem setReg_status (r : Reg) (v : Word) : (s.setReg r v).status = s.status := rfl
@[simp] theorem setReg_seg (r : Reg) (v : Word) : (s.setReg r v).seg = s.seg := rfl
@[simp] theorem setReg_nextId (r : Reg) (v : Word) : (s.setReg r v).nextId = s.nextId := rfl
@[simp] theorem setReg_free (r : Reg) (v : Word) : (s.setReg r v).free = s.free := rfl
@[simp] theorem setReg_input (r : Reg) (v : Word) : (s.setReg r v).input = s.input := rfl
@[simp] theorem setReg_inPos (r : Reg) (v : Word) : (s.setReg r v).inPos = s.inPos := rfl
@[simp] theorem setReg_out (r : Reg) (v : Word) : (s.setReg r v).out = s.out := rfl
@[simp] theorem setReg_storageLimit (r : Reg) (v : Word) : (s.setReg r v).storageLimit = s.storageLimit := rfl

/-! ### advance -/

@[simp] theorem advance_x : s.advance.x = s.x := rfl
@[simp] theorem advance_pc : s.advance.pc = s.pc + 1 := rfl
@[simp] theorem advance_status : s.advance.status = s.status := rfl
@[simp] theorem advance_seg : s.advance.seg = s.seg := rfl
@[simp] theorem advance_nextId : s.advance.nextId = s.nextId := rfl
@[simp] theorem advance_free : s.advance.free = s.free := rfl
@[simp] theorem advance_input : s.advance.input = s.input := rfl
@[simp] theorem advance_inPos : s.advance.inPos = s.inPos := rfl
@[simp] theorem advance_out : s.advance.out = s.out := rfl
@[simp] theorem advance_storageLimit : s.advance.storageLimit = s.storageLimit := rfl

/-! ### setPc -/

@[simp] theorem setPc_x (p : Word) : (s.setPc p).x = s.x := rfl
@[simp] theorem setPc_pc (p : Word) : (s.setPc p).pc = p := rfl
@[simp] theorem setPc_status (p : Word) : (s.setPc p).status = s.status := rfl
@[simp] theorem setPc_seg (p : Word) : (s.setPc p).seg = s.seg := rfl
@[simp] theorem setPc_nextId (p : Word) : (s.setPc p).nextId = s.nextId := rfl
@[simp] theorem setPc_free (p : Word) : (s.setPc p).free = s.free := rfl
@[simp] theorem setPc_input (p : Word) : (s.setPc p).input = s.input := rfl
@[simp] theorem setPc_inPos (p : Word) : (s.setPc p).inPos = s.inPos := rfl
@[simp] theorem setPc_out (p : Word) : (s.setPc p).out = s.out := rfl
@[simp] theorem setPc_storageLimit (p : Word) : (s.setPc p).storageLimit = s.storageLimit := rfl

/-! ### outputByte -/

@[simp] theorem outputByte_x (b : Byte) : (s.outputByte b).x = s.x := rfl
@[simp] theorem outputByte_pc (b : Byte) : (s.outputByte b).pc = s.pc := rfl
@[simp] theorem outputByte_status (b : Byte) : (s.outputByte b).status = s.status := rfl
@[simp] theorem outputByte_seg (b : Byte) : (s.outputByte b).seg = s.seg := rfl
@[simp] theorem outputByte_nextId (b : Byte) : (s.outputByte b).nextId = s.nextId := rfl
@[simp] theorem outputByte_free (b : Byte) : (s.outputByte b).free = s.free := rfl
@[simp] theorem outputByte_input (b : Byte) : (s.outputByte b).input = s.input := rfl
@[simp] theorem outputByte_inPos (b : Byte) : (s.outputByte b).inPos = s.inPos := rfl
@[simp] theorem outputByte_out (b : Byte) : (s.outputByte b).out = s.out ++ [b] := rfl
@[simp] theorem outputByte_storageLimit (b : Byte) : (s.outputByte b).storageLimit = s.storageLimit := rfl

/-! ### The register bank (10_state.md R11) -/

@[simp] theorem reg_setReg_self (r : Reg) (v : Word) : (s.setReg r v).reg r = v := by
  simp [reg, setReg]

theorem reg_setReg_ne {r q : Reg} (h : q ≠ r) (v : Word) : (s.setReg r v).reg q = s.reg q := by
  have : r.val ≠ q.val := fun e => h (Fin.ext e.symm)
  simp [reg, setReg, Vector.getElem_set_ne, this]

/-- A register reads as the last value written to it, or as before. -/
theorem reg_setReg (r q : Reg) (v : Word) :
    (s.setReg r v).reg q = if q = r then v else s.reg q := by
  split
  · next h => subst h; exact s.reg_setReg_self q v
  · next h => exact s.reg_setReg_ne h v

/-- Registers are read from the bank alone. -/
theorem reg_congr {s t : State} (h : t.x = s.x) (r : Reg) : t.reg r = s.reg r := by
  simp [reg, h]

@[simp] theorem reg_advance (r : Reg) : s.advance.reg r = s.reg r := rfl
@[simp] theorem reg_setPc (p : Word) (r : Reg) : (s.setPc p).reg r = s.reg r := rfl
@[simp] theorem reg_outputByte (b : Byte) (r : Reg) : (s.outputByte b).reg r = s.reg r := rfl

/-! ### The memory's readers see the table alone (10_state.md R24) -/

theorem lenOf_congr {s t : State} (h : t.seg = s.seg) (id : Word) : t.lenOf id = s.lenOf id := by
  simp [lenOf, h]

theorem mapped_congr {s t : State} (h : t.seg = s.seg) (id : Word) : t.mapped id = s.mapped id := by
  simp [mapped, h]

theorem memRead_congr {s t : State} (h : t.seg = s.seg) (id off : Word) :
    t.memRead id off = s.memRead id off := by
  simp [memRead, translate, getSegment, h]

theorem fetch_congr {s t : State} (h : t.seg = s.seg) (hp : t.pc = s.pc) : t.fetch = s.fetch := by
  simp [fetch, h, hp]

end Sys2Proof.Machine.State
end

