-- ==== Sys2Proof/Laws/Ops.lean ====
section
/-! SUPPORT. One lemma for each shared operation that says once everything it can do; later proofs cite
these and do not unfold the operations. -/

namespace Sys2Proof.Machine

/-! ### The end of an instruction -/

/-- Everything the end of an instruction can do: the fault entry, or the operation's state, advanced. -/
theorem complete_eq_next {s t : State} {r : Except FaultKind State} :
    complete s r = .next t ↔
      (∃ k, r = .error k ∧ t = { s with status := .faulted k }) ∨ ∃ u, r = .ok u ∧ t = u.advance := by
  cases r with
  | error k => simp [complete, raise, eq_comm]
  | ok u => simp [complete, eq_comm]

theorem complete_ok {s u : State} {r : Except FaultKind State} (h : r = .ok u) :
    complete s r = .next u.advance := by
  subst h; rfl

theorem complete_error {s : State} {k : FaultKind} {r : Except FaultKind State}
    (h : r = .error k) : complete s r = .next { s with status := .faulted k } := by
  subst h; rfl

/-- `Except.map` that succeeds, taken apart. -/
theorem map_eq_ok {α β : Type} {r : Except FaultKind α} {f : α → β} {b : β} :
    r.map f = .ok b ↔ ∃ a, r = .ok a ∧ f a = b := by
  cases r <;> simp [Except.map]

/-- `Except.map` that fails, taken apart. -/
theorem map_eq_error {α β : Type} {r : Except FaultKind α} {f : α → β} {k : FaultKind} :
    r.map f = .error k ↔ r = .error k := by
  cases r <;> simp [Except.map]

namespace State

variable {s t : State}

/-! ### The translator -/

theorem getSegment_eq_ok {id : Word} {g : Segment} :
    s.getSegment id = .ok g ↔ s.seg.segment id = some g := by
  unfold getSegment; split <;> simp_all

theorem getSegment_eq_error {id : Word} {k : FaultKind} :
    s.getSegment id = .error k ↔ s.seg.segment id = none ∧ k = .invalidSegmentAccess := by
  unfold getSegment
  cases s.seg.segment id with
  | none => simp [@eq_comm _ k]
  | some g => simp

/-- A translation succeeds exactly when both checks of R35 pass. -/
theorem translate_eq_ok {id off : Word} {g : Segment} :
    s.translate id off = .ok g ↔ s.seg.segment id = some g ∧ off.toNat < g.len.toNat := by
  unfold translate getSegment
  cases s.seg.segment id with
  | none => simp
  | some h =>
    simp only [beyondEnd, decide_eq_true_eq, Option.some.injEq]
    split
    · next hb => rw [BitVec.le_def] at hb; simp; intro e; subst e; exact hb
    · next hb =>
      rw [BitVec.le_def] at hb
      simp only [Except.ok.injEq]
      exact ⟨fun e => ⟨e, by subst e; omega⟩, fun e => e.1⟩

/-- A translation fails only with InvalidSegmentAccess. -/
theorem translate_eq_error {id off : Word} {k : FaultKind} (h : s.translate id off = .error k) :
    k = .invalidSegmentAccess := by
  unfold translate getSegment at h
  cases hs : s.seg.segment id with
  | none => simp_all
  | some g =>
    rw [hs] at h
    dsimp only at h
    split at h
    · cases h; rfl
    · cases h

/-- Everything a read can answer (R36). -/
theorem memRead_eq_ok {id off v : Word} :
    s.memRead id off = .ok v ↔
      ∃ g, s.seg.segment id = some g ∧ off.toNat < g.len.toNat ∧ g.read off = v := by
  simp only [memRead, map_eq_ok, translate_eq_ok, and_assoc]

/-- Everything a write can do (R37). -/
theorem memWrite_eq_ok {id off v : Word} :
    s.memWrite id off v = .ok t ↔
      ∃ g, s.seg.segment id = some g ∧ off.toNat < g.len.toNat ∧
        t = { s with seg := s.seg.register id (g.write off v) } := by
  simp only [memWrite, map_eq_ok, translate_eq_ok, and_assoc, @eq_comm _ _ t]

/-- Everything a fetch can answer (R38). -/
theorem fetch_eq_ok {w : Word} :
    s.fetch = .ok w ↔
      ∃ g, s.seg.segment 0 = some g ∧ s.pc.toNat < g.len.toNat ∧ g.read s.pc = w := by
  unfold fetch
  cases s.seg.segment 0 with
  | none => simp
  | some g =>
    simp only [beyondEnd, decide_eq_true_eq, Option.some.injEq, exists_eq_left']
    split
    · next h => rw [BitVec.le_def] at h; simp; intro h'; omega
    · next h => rw [BitVec.le_def] at h; simp; intro; omega

theorem fetch_eq_error {k : FaultKind} (h : s.fetch = .error k) : k = .outOfBoundsFetch := by
  unfold fetch at h
  split at h
  · cases h; rfl
  · split at h
    · cases h; rfl
    · cases h

/-! ### The segment manager -/

/-- Everything the allocator can do (R95). -/
theorem allocateId_eq_ok {id : Word} :
    s.allocateId = .ok (id, t) ↔
      (∃ rest, s.free = id :: rest ∧ t = { s with free := rest }) ∨
      (s.free = [] ∧ s.nextId ≤ idMax ∧ id = s.nextId ∧ t = { s with nextId := s.nextId + 1 }) := by
  unfold allocateId
  cases hf : s.free with
  | cons j rest =>
    simp only [Except.ok.injEq, Prod.mk.injEq, List.cons.injEq, reduceCtorEq, false_and, or_false]
    constructor
    · rintro ⟨rfl, rfl⟩; exact ⟨rest, ⟨rfl, rfl⟩, rfl⟩
    · rintro ⟨r, ⟨rfl, rfl⟩, rfl⟩; exact ⟨rfl, rfl⟩
  | nil =>
    simp only [canMint, decide_eq_true_eq, reduceCtorEq, false_and, exists_false, false_or, true_and]
    split
    · next h =>
      simp only [h, true_and, Except.ok.injEq, Prod.mk.injEq]
      constructor <;> rintro ⟨rfl, rfl⟩ <;> exact ⟨rfl, rfl⟩
    · next h => simp [h]

theorem allocateId_eq_error {k : FaultKind} :
    s.allocateId = .error k ↔ s.free = [] ∧ ¬ s.nextId ≤ idMax ∧ k = .idSpaceExhausted := by
  unfold allocateId
  cases hf : s.free with
  | cons j rest => simp
  | nil =>
    simp only [canMint, decide_eq_true_eq, true_and]
    split
    · next h => simp [h]
    · next h => simp [h, eq_comm]

/-- Everything `Create` can do (R96, R104). -/
theorem createSegment_eq_ok {n id : Word} :
    s.createSegment n = .ok (id, t) ↔
      withinStorage s.storageLimit (n.toNat + s.seg.words) = true ∧
      ∃ u, s.allocateId = .ok (id, u) ∧ t = { u with seg := u.seg.register id (Segment.zeros n) } := by
  unfold createSegment
  split
  · next h =>
    simp only [h, true_and, map_eq_ok, Prod.mk.injEq, Prod.exists]
    constructor
    · rintro ⟨j, u, ha, rfl, rfl⟩; exact ⟨u, ha, rfl⟩
    · rintro ⟨u, ha, rfl⟩; exact ⟨id, u, ha, rfl, rfl⟩
  · next h => simp [h]

theorem createSegment_eq_error {n : Word} {k : FaultKind} :
    s.createSegment n = .error k ↔
      (withinStorage s.storageLimit (n.toNat + s.seg.words) = false ∧ k = .storageExhausted) ∨
      (withinStorage s.storageLimit (n.toNat + s.seg.words) = true ∧
        s.allocateId = .error k) := by
  unfold createSegment
  split
  · next h => simp [h, map_eq_error]
  · next h => simp [h, eq_comm]

/-- Everything `Delete` can do (R97, R98). -/
theorem deleteSegment_eq_ok {id : Word} :
    s.deleteSegment id = .ok t ↔
      id ≠ 0 ∧ s.mapped id = true ∧
        t = { s with seg := s.seg.release id, free := id :: s.free } := by
  unfold deleteSegment getSegment mapped
  split
  · next h => exact ⟨nofun, fun e => absurd h e.1⟩
  · next h =>
    cases s.seg.segment id with
    | none => exact ⟨nofun, fun e => absurd e.2.1 (by simp)⟩
    | some g => exact ⟨fun e => by cases e; exact ⟨h, rfl, rfl⟩, fun e => by rw [e.2.2]; rfl⟩

theorem deleteSegment_eq_error {id : Word} {k : FaultKind} :
    s.deleteSegment id = .error k ↔
      (id = 0 ∧ k = .unmapReservedSegment) ∨
      (id ≠ 0 ∧ s.mapped id = false ∧ k = .invalidSegmentAccess) := by
  unfold deleteSegment getSegment mapped
  split
  · next h =>
    exact ⟨fun e => by cases e; exact .inl ⟨h, rfl⟩,
      fun e => e.elim (fun e => by rw [e.2]) fun e => absurd h e.1⟩
  · next h =>
    cases s.seg.segment id with
    | none =>
      exact ⟨fun e => by cases e; exact .inr ⟨h, rfl, rfl⟩,
        fun e => e.elim (fun e => absurd e.1 h) fun e => by rw [e.2.2]; rfl⟩
    | some g =>
      exact ⟨nofun, fun e => e.elim (fun e => absurd e.1 h) fun e => absurd e.2.1 (by simp)⟩

/-- Everything Load Program's copy can do (R121, R102, R104). -/
theorem copyToZero_eq_ok {id : Word} :
    s.copyToZero id = .ok t ↔
      (id = 0 ∧ t = s) ∨
      (id ≠ 0 ∧ ∃ g, s.seg.segment id = some g ∧
        withinStorage s.storageLimit (g.len.toNat + (s.seg.release 0).words) = true ∧
        t = { s with seg := s.seg.register 0 g }) := by
  unfold copyToZero
  split
  · next h =>
    exact ⟨fun e => by cases e; exact .inl ⟨h, rfl⟩,
      fun e => e.elim (fun e => by rw [e.2]) fun e => absurd h e.1⟩
  · next h =>
    unfold getSegment replaceZero
    cases s.seg.segment id with
    | none =>
      exact ⟨nofun, fun e => e.elim (fun e => absurd e.1 h) fun ⟨_, _, hg, _⟩ => nomatch hg⟩
    | some g =>
      dsimp only
      split
      · next hw =>
        exact ⟨fun e => by cases e; exact .inr ⟨h, g, rfl, hw, rfl⟩,
          fun e => e.elim (fun e => absurd e.1 h) fun ⟨_, _, hg, _, ht⟩ => by cases hg; rw [ht]⟩
      · next hw =>
        exact ⟨nofun,
          fun e => e.elim (fun e => absurd e.1 h) fun ⟨_, _, hg, hw', _⟩ => by cases hg; exact absurd hw' hw⟩

theorem copyToZero_eq_error {id : Word} {k : FaultKind} :
    s.copyToZero id = .error k ↔
      id ≠ 0 ∧ ((s.seg.segment id = none ∧ k = .invalidSegmentAccess) ∨
        ∃ g, s.seg.segment id = some g ∧
          withinStorage s.storageLimit (g.len.toNat + (s.seg.release 0).words) = false ∧
          k = .storageExhausted) := by
  unfold copyToZero
  split
  · next h => exact ⟨nofun, fun e => absurd h e.1⟩
  · next h =>
    unfold getSegment replaceZero
    cases s.seg.segment id with
    | none =>
      exact ⟨fun e => by cases e; exact ⟨h, .inl ⟨rfl, rfl⟩⟩,
        fun e => e.2.elim (fun e => by rw [e.2]) fun ⟨_, hg, _⟩ => nomatch hg⟩
    | some g =>
      dsimp only
      split
      · next hw =>
        exact ⟨nofun, fun e => e.2.elim (fun e => nomatch e.1) fun ⟨_, hg, hw', _⟩ => by
          cases hg; rw [hw] at hw'; cases hw'⟩
      · next hw =>
        exact ⟨fun e => by cases e; exact ⟨h, .inr ⟨g, rfl, by simpa using hw, rfl⟩⟩,
          fun e => e.2.elim (fun e => nomatch e.1) fun ⟨_, _, _, hk⟩ => by rw [hk]⟩

/-! ### The input stream -/

/-- Everything an input can do (R113, R114). -/
theorem inputWord_cases (s : State) :
    (∃ b, s.input[s.inPos]? = some b ∧ s.inputWord = (b.setWidth 32, { s with inPos := s.inPos + 1 })) ∨
    (s.input[s.inPos]? = none ∧ s.inputWord = (endOfStream, s)) := by
  unfold inputWord
  cases s.input[s.inPos]? with
  | none => exact .inr ⟨rfl, rfl⟩
  | some b => exact .inl ⟨b, rfl, rfl⟩

end State

/-! ### One step (40_execution_cycle.md R70, R75) -/

/-- Everything a step that answers a next state can be: a fetch fault, or the decoded instruction. -/
theorem step_eq_next {s t : State} :
    step s = .next t ↔
      s.status = .running ∧
        ((s.fetch = .error .outOfBoundsFetch ∧
            t = { s with status := .faulted .outOfBoundsFetch }) ∨
          ∃ w, s.fetch = .ok w ∧ exec (decode w) s = .next t) := by
  unfold step
  cases hs : s.status with
  | halted => simp
  | faulted k => simp
  | running =>
    cases hf : s.fetch with
    | error k =>
      have := State.fetch_eq_error hf
      subst this
      simp [raise, eq_comm]
    | ok w => simp

end Sys2Proof.Machine
end

