-- ==== Sys2Proof/Laws/Exec.lean ====
section
/-! SUPPORT. What each instruction can do, said once: `Effect i s t` lists, for every instruction, the
cases in which executing `i` in `s` answers `t`, and `exec_eq_next` says that these are all. Later proofs
split on it instead of unfolding the meanings. -/

namespace Sys2Proof.Machine

/-- The state with the fault entry taken (60_exceptions.md R161). -/
abbrev State.withFault (s : State) (k : FaultKind) : State := { s with status := .faulted k }

/-- Everything that executing an instruction can do, one line a case, the faults after the effect. -/
def Effect (i : Instr) (s t : State) : Prop :=
  match i with
  | .cmov a b c =>
    (s.reg c ≠ 0 ∧ t = (s.setReg a (s.reg b)).advance) ∨ (s.reg c = 0 ∧ t = s.advance)
  | .sload a b c =>
    (∃ v, s.memRead (s.reg b) (s.reg c) = .ok v ∧ t = (s.setReg a v).advance) ∨
    (∃ k, s.memRead (s.reg b) (s.reg c) = .error k ∧ t = s.withFault k)
  | .sstore a b c =>
    (∃ u, s.memWrite (s.reg a) (s.reg b) (s.reg c) = .ok u ∧ t = u.advance) ∨
    (∃ k, s.memWrite (s.reg a) (s.reg b) (s.reg c) = .error k ∧ t = s.withFault k)
  | .add a b c => t = (s.setReg a (aluAdd (s.reg b) (s.reg c))).advance
  | .mul a b c => t = (s.setReg a (aluMul (s.reg b) (s.reg c))).advance
  | .div a b c =>
    (s.reg c ≠ 0 ∧ t = (s.setReg a (aluDiv (s.reg b) (s.reg c))).advance) ∨
    (s.reg c = 0 ∧ t = s.withFault .divisionByZero)
  | .nand a b c => t = (s.setReg a (aluNand (s.reg b) (s.reg c))).advance
  | .halt _ _ _ => t = { s with status := .halted }
  | .map _ b c =>
    (∃ id u, s.createSegment (s.reg c) = .ok (id, u) ∧ t = (u.setReg b id).advance) ∨
    (∃ k, s.createSegment (s.reg c) = .error k ∧ t = s.withFault k)
  | .unmap _ _ c =>
    (∃ u, s.deleteSegment (s.reg c) = .ok u ∧ t = u.advance) ∨
    (∃ k, s.deleteSegment (s.reg c) = .error k ∧ t = s.withFault k)
  | .output _ _ c =>
    ((s.reg c).toNat ≤ 255 ∧ t = (s.outputByte ((s.reg c).setWidth 8)).advance) ∨
    (255 < (s.reg c).toNat ∧ t = s.withFault .outputRangeError)
  | .input _ _ c => t = (s.inputWord.2.setReg c s.inputWord.1).advance
  | .loadp _ b c =>
    (∃ u, s.copyToZero (s.reg b) = .ok u ∧ t = u.setPc (s.reg c)) ∨
    (∃ k, s.copyToZero (s.reg b) = .error k ∧ t = s.withFault k)
  | .loadi a imm => t = (s.setReg a (immediate imm)).advance
  | .illegal14 | .illegal15 => t = s.withFault .invalidOpcode

theorem complete_eq_next_iff {s t : State} {r : Except FaultKind State} :
    complete s r = .next t ↔
      (∃ u, r = .ok u ∧ t = u.advance) ∨ ∃ k, r = .error k ∧ t = s.withFault k :=
  complete_eq_next.trans or_comm

/-- The range check of OUT, as a comparison of numbers. -/
theorem exceedsOutput_iff {c : Word} : exceedsOutput c = true ↔ 255 < c.toNat := by
  simp only [exceedsOutput, outputLimit, BitVec.lt_def, decide_eq_true_eq]
  exact Iff.rfl

/-- Executing an instruction answers a next state exactly as `Effect` lists. -/
theorem exec_eq_next {i : Instr} {s t : State} : exec i s = .next t ↔ Effect i s t := by
  cases i with
  | cmov a b c =>
    simp only [exec, execCmov, Effect, conditionHolds, bne_iff_ne, Host.Outcome.next.injEq]
    split
    · next h => exact ⟨fun e => .inl ⟨h, e.symm⟩, fun e => e.elim (·.2.symm) fun e => absurd e.1 h⟩
    · next h =>
      exact ⟨fun e => .inr ⟨not_not.1 h, e.symm⟩, fun e => e.elim (fun e => absurd e.1 h) (·.2.symm)⟩
  | sload a b c =>
    simp only [exec, execSload, Effect, complete_eq_next_iff, map_eq_ok, map_eq_error, State.address]
    refine or_congr ⟨?_, ?_⟩ Iff.rfl
    · rintro ⟨u, ⟨v, hv, rfl⟩, rfl⟩; exact ⟨v, hv, rfl⟩
    · rintro ⟨v, hv, rfl⟩; exact ⟨_, ⟨v, hv, rfl⟩, rfl⟩
  | sstore a b c => exact complete_eq_next_iff
  | add a b c => simp only [exec, execAdd, Effect, Host.Outcome.next.injEq, eq_comm]
  | mul a b c => simp only [exec, execMul, Effect, Host.Outcome.next.injEq, eq_comm]
  | div a b c =>
    simp only [exec, execDiv, Effect, divByZero, beq_iff_eq]
    split
    · next h =>
      simp only [complete, raise, Host.Outcome.next.injEq]
      exact ⟨fun e => .inr ⟨h, e.symm⟩, fun e => e.elim (fun e => absurd h e.1) (·.2.symm)⟩
    · next h =>
      simp only [complete, Host.Outcome.next.injEq]
      exact ⟨fun e => .inl ⟨h, e.symm⟩, fun e => e.elim (·.2.symm) fun e => absurd e.1 h⟩
  | nand a b c => simp only [exec, execNand, Effect, Host.Outcome.next.injEq, eq_comm]
  | halt a b c => simp only [exec, execHalt, Effect, Host.Outcome.next.injEq, eq_comm]
  | map a b c =>
    simp only [exec, execMap, Effect, complete_eq_next_iff, map_eq_ok, map_eq_error]
    refine or_congr ⟨?_, ?_⟩ Iff.rfl
    · rintro ⟨u, ⟨⟨id, v⟩, hv, rfl⟩, rfl⟩; exact ⟨id, v, hv, rfl⟩
    · rintro ⟨id, v, hv, rfl⟩; exact ⟨_, ⟨(id, v), hv, rfl⟩, rfl⟩
  | unmap a b c => exact complete_eq_next_iff
  | output a b c =>
    simp only [exec, execOutput, Effect, exceedsOutput_iff]
    split
    · next h =>
      simp only [complete, raise, Host.Outcome.next.injEq]
      exact ⟨fun e => .inr ⟨h, e.symm⟩, fun e => e.elim (fun e => by omega) (·.2.symm)⟩
    · next h =>
      simp only [complete, Host.Outcome.next.injEq]
      exact ⟨fun e => .inl ⟨by omega, e.symm⟩, fun e => e.elim (·.2.symm) fun e => absurd e.1 h⟩
  | input a b c => simp only [exec, execInput, Effect, Host.Outcome.next.injEq, eq_comm]
  | loadp a b c =>
    simp only [exec, execLoadp, Effect]
    cases s.copyToZero (s.reg b) with
    | error k => simp [raise, eq_comm]
    | ok u => simp [eq_comm]
  | loadi a imm => simp only [exec, execLoadi, Effect, Host.Outcome.next.injEq, eq_comm]
  | illegal14 => simp only [exec, execIllegal14, raise, Effect, Host.Outcome.next.injEq, eq_comm]
  | illegal15 => simp only [exec, execIllegal15, raise, Effect, Host.Outcome.next.injEq, eq_comm]

end Sys2Proof.Machine
end

