-- ==== Sys2Proof/Laws/PerInstr.lean ====
section
/-! SUPPORT. The per-instruction family `OpcodeField`: the canonical word of every instruction carries the
instruction's opcode in bits [31:28] (30_encoding.md R51, R59). -/

namespace Sys2Proof.Laws

/-- The number a word of format S stands for: nothing is lost to the 32 bits. -/
theorem encodeS_toNat {op : Nat} (h : op ≤ 15) (a b c : Reg) :
    (encodeS op a b c).toNat = op * 2 ^ 28 + a.val * 2 ^ 6 + b.val * 2 ^ 3 + c.val := by
  have := a.isLt; have := b.isLt; have := c.isLt
  simp only [encodeS, BitVec.toNat_ofNat]
  omega

/-- The number a word of format I stands for. -/
theorem encodeI_toNat (a : Reg) (imm : Imm) :
    (encodeI a imm).toNat = 13 * 2 ^ 28 + a.val * 2 ^ 25 + imm.toNat := by
  have := a.isLt; have := imm.isLt
  simp only [encodeI, BitVec.toNat_ofNat]
  omega

theorem bits_encodeS_opcode {op : Nat} (h : op ≤ 15) (a b c : Reg) :
    bits (encodeS op a b c) 31 28 = op := by
  have := a.isLt; have := b.isLt; have := c.isLt
  rw [bits, encodeS_toNat h]
  omega

namespace OpcodeField

/-- Bits [31:28] of the encoded instruction are its opcode. -/
def Statement (i : Instr) : Prop := bits (encode i) 31 28 = i.opcode

theorem cmov (a b c : Reg) : Statement (.cmov a b c) := bits_encodeS_opcode (by decide) a b c
theorem sload (a b c : Reg) : Statement (.sload a b c) := bits_encodeS_opcode (by decide) a b c
theorem sstore (a b c : Reg) : Statement (.sstore a b c) := bits_encodeS_opcode (by decide) a b c
theorem add (a b c : Reg) : Statement (.add a b c) := bits_encodeS_opcode (by decide) a b c
theorem mul (a b c : Reg) : Statement (.mul a b c) := bits_encodeS_opcode (by decide) a b c
theorem div (a b c : Reg) : Statement (.div a b c) := bits_encodeS_opcode (by decide) a b c
theorem nand (a b c : Reg) : Statement (.nand a b c) := bits_encodeS_opcode (by decide) a b c
theorem halt (a b c : Reg) : Statement (.halt a b c) := bits_encodeS_opcode (by decide) a b c
theorem map (a b c : Reg) : Statement (.map a b c) := bits_encodeS_opcode (by decide) a b c
theorem unmap (a b c : Reg) : Statement (.unmap a b c) := bits_encodeS_opcode (by decide) a b c
theorem output (a b c : Reg) : Statement (.output a b c) := bits_encodeS_opcode (by decide) a b c
theorem input (a b c : Reg) : Statement (.input a b c) := bits_encodeS_opcode (by decide) a b c
theorem loadp (a b c : Reg) : Statement (.loadp a b c) := bits_encodeS_opcode (by decide) a b c

theorem loadi (a : Reg) (imm : Imm) : Statement (.loadi a imm) := by
  have := a.isLt; have := imm.isLt
  show bits (encodeI a imm) 31 28 = 13
  rw [bits, encodeI_toNat]
  omega

theorem illegal14 : Statement .illegal14 := rfl
theorem illegal15 : Statement .illegal15 := rfl

end OpcodeField

end Sys2Proof.Laws
end

