-- ==== Sys2Proof/Tests/Slice0.lean ====
section
/-! SUPPORT. The model's own tests: well-formedness, words written out from the spec's encodings, one step
of each instruction on values of 95_test_vectors.md, and, for every statement that has hypotheses, a state
and operands that meet them. Every expected value is the spec's; V, F and P numbers are those of
95_test_vectors.md. -/

namespace Sys2Proof.Tests

open Sys2Proof.Machine Sys2Proof.Claims

/-! ### Helpers -/

/-- A Running state in which ids 0, 1 and 3 are mapped and id 2 is free: segment 0 holds a Halt word at
index 0 and has four Words, segment 1 is `[10, 20, 30]` (the state of V55 to V61), segment 3 is empty. -/
def demo : State :=
  { State.boot Config.regReset none [0x70000000, 0, 0, 0] [0x41, 0xFF] with
    seg := [(0, Segment.ofWords [0x70000000, 0, 0, 0]), (1, Segment.ofWords [10, 20, 30]),
      (3, Segment.zeros 0)]
    nextId := 4
    free := [2] }

/-- `demo` with x[1], x[2], x[3] at the given Words. -/
def demo3 (v1 v2 v3 : Word) : State := ((demo.setReg 1 v1).setReg 2 v2).setReg 3 v3

/-- The step that runs one Word in a given state. -/
def run (w : Nat) (s : State) : Option State :=
  match step (s.withFetchWord 32 w) with
  | .next t => some t
  | _ => none

/-- The status, as a function to map over an outcome. -/
def status (s : State) : Status := s.status

/-- The Word at a cell, none where the access would fault. -/
def at? (id off : Word) (s : State) : Option Word := (s.memRead id off).toOption

/-! ### Well-formedness: an ill-formed term for each way to be ill-formed (30_encoding.md R57) -/

theorem test_opcode14_is_ill_formed : Instr.illegal14.wellFormed = false := by decide
theorem test_opcode15_is_ill_formed : Instr.illegal15.wellFormed = false := by decide
theorem test_last_operation_is_well_formed : (Instr.loadi 7 0x1FFFFFF).wellFormed = true := by decide

/-! ### Decode: words written out bit by bit from 30_encoding.md R51 to R53 (V1 to V18; part 3) -/

/-- V1, V2. -/
theorem test_decode_cmov : decode 0b00000000000000000000000011100010 = .cmov 3 4 2 ∧
    decode 0 = .cmov 0 0 0 := by decide
/-- V3. -/
theorem test_decode_sload : decode 0b00010000000000000000000010001100 = .sload 2 1 4 := by decide
/-- V4. -/
theorem test_decode_sstore : decode 0b00100000000000000000000001100101 = .sstore 1 4 5 := by decide
/-- V5, V6. -/
theorem test_decode_add : decode 0b00110000000000000000000111001000 = .add 7 1 0 ∧
    decode 0x3ABCDE0A = .add 0 1 2 := by decide
/-- Program P5, index 4. -/
theorem test_decode_mul : decode 0b01000000000000000000000101010100 = .mul 5 2 4 := by decide
/-- Program P4, index 2. -/
theorem test_decode_div : decode 0b01010000000000000000000000001010 = .div 0 1 2 := by decide
/-- Program P9, index 1. -/
theorem test_decode_nand : decode 0b01100000000000000000000110111111 = .nand 6 7 7 := by decide
/-- V7, V8. -/
theorem test_decode_halt : decode 0b01110000000000000000000000000000 = .halt 0 0 0 ∧
    decode 0x7FFFFFFF = .halt 7 7 7 := by decide
/-- V9. -/
theorem test_decode_map : decode 0b10000000000000000000000000001011 = .map 0 1 3 := by decide
/-- Program P6, index 5. -/
theorem test_decode_unmap : decode 0b10010000000000000000000000000011 = .unmap 0 0 3 := by decide
/-- Program P7, index 8. -/
theorem test_decode_output : decode 0b10100000000000000000000000000001 = .output 0 0 1 := by decide
/-- V70. -/
theorem test_decode_input : decode 0b10110000000000000000000000000011 = .input 0 0 3 := by decide
/-- V10. -/
theorem test_decode_loadp : decode 0b11000000000000000000000000111011 = .loadp 0 7 3 := by decide
/-- V14, V12, V13: the register comes from bits [27:25], and the low 9 bits are immediate. -/
theorem test_decode_loadi : decode 0b11011010000000000000000001100011 = .loadi 5 99 ∧
    decode 0xDFFFFFFF = .loadi 7 33554431 ∧ decode 0xD00001FF = .loadi 0 511 := by decide
/-- V15, V17. -/
theorem test_decode_illegal14 : decode 0b11100000000000000000000000000000 = .illegal14 ∧
    decode 0xEFFFFFFF = .illegal14 := by decide
/-- V16, V18. -/
theorem test_decode_illegal15 : decode 0b11110000000000000000000000000000 = .illegal15 ∧
    decode 0xFFFFFFFF = .illegal15 := by decide

/-- The three encodings of 95_test_vectors.md section 2.1. -/
theorem test_encode : encode (.div 1 2 3) = 0x50000053 ∧ encode (.loadi 4 2) = 0xD8000002 ∧
    encode (.loadp 0 1 0) = 0xC0000008 := by decide

/-- The host's reading of a table row; a row of more than one Word is no instruction (R50). -/
theorem test_decodeTableWord : decodeTableWord 32 0x8000000B = some (.map 0 1 3) ∧
    decodeTableWord 64 0x8000000B = none := by decide

/-! ### One step of each instruction, from its word (95_test_vectors.md sections 2.2 to 2.6) -/

/-- V47 and V46. -/
theorem test_cmov : (run 0x00000053 (demo3 5 9 0x80000000)).map (·.reg 1) = some 9 ∧
    (run 0x00000053 (demo3 5 9 0)).map (·.reg 1) = some 5 := by decide
/-- V20 and V22: the wrap, and a source that is also the destination. -/
theorem test_add : (run 0x30000053 (demo3 0 0xFFFFFFFF 1)).map (·.reg 1) = some 0 ∧
    (run 0x30000049 (demo3 0x80000001 0 0)).map (·.reg 1) = some 2 := by decide
/-- V27 and V26. -/
theorem test_mul : (run 0x40000053 (demo3 0 0xFFFFFFFF 5)).map (·.reg 1) = some 0xFFFFFFFB ∧
    (run 0x40000053 (demo3 7 0x00010000 0x00010000)).map (·.reg 1) = some 0 := by decide
/-- V31 and V32: the division is unsigned. -/
theorem test_div : (run 0x50000053 (demo3 0 0xFFFFFFFF 2)).map (·.reg 1) = some 0x7FFFFFFF ∧
    (run 0x50000053 (demo3 1 0x80000000 0xFFFFFFFF)).map (·.reg 1) = some 0 := by decide
/-- V36: the fault writes neither x[1] nor `pc`. -/
theorem test_div_by_zero :
    (run 0x50000053 (demo3 0xAAAAAAAA 7 0)).map (fun t => (t.status, t.reg 1, t.pc))
      = some (.faulted .divisionByZero, 0xAAAAAAAA, 0) := by decide
/-- V40 and V42. -/
theorem test_nand : (run 0x60000053 (demo3 5 0 0)).map (·.reg 1) = some 0xFFFFFFFF ∧
    (run 0x60000053 (demo3 5 0x0000FFFF 0x00FF00FF)).map (·.reg 1) = some 0xFFFFFF00 := by decide
/-- V51 and V52: no sign extension. -/
theorem test_loadi : (run 0xDFFFFFFF demo).map (·.reg 7) = some 0x01FFFFFF ∧
    (run 0xD6000000 (demo3 0 0 0x12345678)).map (·.reg 3) = some 0 := by decide
/-- V55, and V58: a source that is also the destination. -/
theorem test_sload : (run 0x100000CA (demo3 1 2 0)).map (·.reg 3) = some 30 ∧
    (run 0x1000004A (demo3 1 0 0)).map (·.reg 1) = some 10 := by decide
/-- V56 and V57. -/
theorem test_sload_faults :
    (run 0x100000CA (demo3 1 3 7)).map (fun t => (t.status, t.reg 3))
      = some (.faulted .invalidSegmentAccess, 7) ∧
    (run 0x100000CA (demo3 2 0 7)).map status = some (.faulted .invalidSegmentAccess) := by decide
/-- V59, and the Words beside the one stored. -/
theorem test_sstore :
    (run 0x20000053 (demo3 1 1 0xDEADBEEF)).map (fun t => [at? 1 0 t, at? 1 1 t, at? 1 2 t])
      = some [some 10, some 0xDEADBEEF, some 30] := by decide
/-- V60 and V61. -/
theorem test_sstore_faults :
    (run 0x20000053 (demo3 1 0xFFFFFFFF 5)).map status = some (.faulted .invalidSegmentAccess) ∧
    (run 0x20000053 (demo3 0xFFFFFFFF 0 5)).map status
      = some (.faulted .invalidSegmentAccess) := by decide
/-- V80. -/
theorem test_halt :
    (run 0x70000000 { demo with pc := 5 }).map (fun t => (t.status, t.pc)) = some (.halted, 5) := by
  decide
/-- V65, and V68: the most recently freed id comes back first. -/
theorem test_map :
    (run 0x8000000B (State.reset.setReg 3 4)).map
      (fun t => (t.reg 1, t.nextId, [at? 1 0 t, at? 1 3 t, at? 1 4 t]))
      = some (1, 2, [some 0, some 0, none]) ∧
    (run 0x80000020 { demo.setReg 0 1 with free := [3, 1], seg := [(0, Segment.zeros 1)] }).map
      (fun t => (t.reg 4, t.free, t.nextId, t.lenOf 3)) = some (3, [1], 4, some 1) := by decide
/-- V69 and V69b. -/
theorem test_map_mints_the_last_id :
    (run 0x80000008 { demo with free := [], nextId := 0xFFFFFFFE }).map
      (fun t => (t.reg 1, t.nextId)) = some (0xFFFFFFFE, 0xFFFFFFFF) ∧
    (run 0x80000008 { demo with free := [], nextId := 0xFFFFFFFF }).map status
      = some (.faulted .idSpaceExhausted) := by decide
/-- V63. -/
theorem test_unmap :
    (run 0x90000001 { demo3 1 0 0 with free := [] }).map (fun t => (t.mapped 1, t.free, t.reg 1))
      = some (false, [1], 1) := by decide
/-- V62 and V64. -/
theorem test_unmap_faults :
    (run 0x90000000 demo).map status = some (.faulted .unmapReservedSegment) ∧
    (run 0x90000002 (demo3 1 2 0)).map status = some (.faulted .invalidSegmentAccess) := by decide
/-- V75 and V77. -/
theorem test_output : (run 0xA0000000 (demo.setReg 0 255)).map (·.out) = some [0xFF] ∧
    (run 0xA0000000 demo).map (·.out) = some [0x00] := by decide
/-- V76 and V78. -/
theorem test_output_range :
    (run 0xA0000000 (demo.setReg 0 256)).map (fun t => (t.status, t.out))
      = some (.faulted .outputRangeError, []) ∧
    (run 0xA0000000 (demo.setReg 0 0xFFFFFFFF)).map status
      = some (.faulted .outputRangeError) := by decide
/-- V71 and V70. -/
theorem test_input :
    (run 0xB0000003 { demo with inPos := 1 }).map (fun t => (t.reg 3, t.inPos)) = some (0xFF, 2) ∧
    (run 0xB0000003 demo).map (fun t => (t.reg 3, t.inPos)) = some (0x41, 1) := by decide
/-- V72. -/
theorem test_input_at_end_of_stream :
    (run 0xB0000003 { demo with inPos := 2 }).map (fun t => (t.reg 3, t.inPos))
      = some (0xFFFFFFFF, 2) := by decide
/-- V81, and V84: a target beyond the end does not fault the jump itself. -/
theorem test_loadp_jumps :
    (run 0xC000003B (demo.setReg 3 2)).map (fun t => (t.pc, t.lenOf 0)) = some (2, some 4) ∧
    (run 0xC000000A (demo3 0 9 0)).map (fun t => (t.pc, t.status)) = some (9, .running) := by decide
/-- V82 and V83. -/
theorem test_loadp_copies :
    (run 0xC0000008 (demo3 1 0 0)).map
      (fun t => (t.pc, t.lenOf 0, at? 0 2 t, t.lenOf 1)) = some (0, some 3, some 30, some 3) ∧
    (run 0xC000000A (demo3 5 0 0)).map (fun t => (t.status, t.lenOf 0))
      = some (.faulted .invalidSegmentAccess, some 4) := by decide
/-- V15, V87. -/
theorem test_illegal14 :
    (run 0xE0000000 demo).map (fun t => (t.status, t.pc)) = some (.faulted .invalidOpcode, 0) := by
  decide
/-- V18. -/
theorem test_illegal15 :
    (run 0xFFFFFFFF demo).map status = some (.faulted .invalidOpcode) := by decide

/-- Program P2, index 0, as the first instruction after reset. -/
theorem test_first_step_after_reset :
    (run 0xD0000048 State.reset).map (fun t => (t.reg 0, t.pc)) = some (72, 1) := by decide
/-- F1: an empty image faults at its first fetch. -/
theorem test_empty_image :
    (match step State.reset with | .next t => some t.status | _ => none)
      = some (.faulted .outOfBoundsFetch) := by decide
/-- 40_execution_cycle.md R75: no step from Halted. -/
theorem test_no_step_when_halted :
    (match step { demo with status := .halted } with | .fault f => some f | _ => none)
      = some .stepWhileHalted := by decide
/-- Program P2's file bytes (20_memory.md R32). -/
theorem test_assemble :
    (assemble [0xD0, 0x00, 0x00, 0x48, 0xA0, 0x00, 0x00, 0x00]).toOption
      = some [0xD0000048, 0xA0000000] ∧ (assemble [0xD0, 0x00, 0x00]).toOption = none := by decide
/-- The memory of the reset state is in its canonical form. -/
theorem test_reset_memory_wf : State.reset.seg.wf := by decide

/-! ### Witnesses: for each statement that has hypotheses, a state and operands that meet them, at the
boundary values of each clause -/

theorem fits_of_le {s : State} {l n : Nat} (h : s.storageLimit = some l) (hn : n ≤ l) : Fits s n :=
  fun l' h' => by rw [h] at h'; cases h'; exact hn

theorem not_fits_of_lt {s : State} {l n : Nat} (h : s.storageLimit = some l) (hn : l < n) :
    ¬ Fits s n := fun hf => absurd (hf l h) (Nat.not_le.mpr hn)

theorem fits_of_none {s : State} {n : Nat} (h : s.storageLimit = none) : Fits s n :=
  fun l' h' => by rw [h] at h'; cases h'

/-- A state that meets State.Inv with an id free and ids mapped. -/
theorem demo_inv : demo.Inv where
  memory := by decide
  zeroMapped := by decide
  freeOnce := by decide
  freeUnmapped := fun id h => by
    have : id = 2 := List.mem_singleton.mp h
    subst this
    decide
  minted := by
    intro id h0
    have h0' : id.toNat ≠ 0 := fun h => h0 (BitVec.eq_of_toNat_eq h)
    have hfree : id ∈ demo.free ↔ id.toNat = 2 := by
      rw [show demo.free = [2] from rfl, List.mem_singleton]
      exact ⟨fun h => by rw [h]; rfl, fun h => BitVec.eq_of_toNat_eq h⟩
    have hmapped : demo.mapped id = true ↔ id.toNat = 0 ∨ id.toNat = 1 ∨ id.toNat = 3 := by
      simp only [State.mapped, Memory.segment, demo, Sparse.find]
      split_ifs <;> simp <;> omega
    rw [hfree, hmapped, show demo.nextId.toNat = 4 from rfl]
    omega
  counter := by decide
  inputPosition := by decide

/-- DecodeAndEncodeAgree, with the highest opcode, and both clauses of its second part. -/
theorem witness_DecodeAndEncodeAgree :
    (Instr.loadi 7 0x1FFFFFF).wellFormed = true ∧
    (decode 0xCFFFFE00).wellFormed = true ∧ encode (decode 0xC00001FF) = 0xC00001FF ∧
    encode (decode 0xDFFFFFFF) = 0xDFFFFFFF ∧ encode (decode 0x3ABCDE0A) ≠ 0x3ABCDE0A := by decide

theorem witness_EncoderWritesTheSpecsFormula :
    (12, Instr.loadp 7 7 7) ∈ [(0, Instr.cmov 7 7 7), (12, .loadp 7 7 7)] := by decide

theorem witness_UnusedBitsAndFieldsAreIgnored :
    (0x3ABCDE0A#32).toNat / 2 ^ 28 = (0x3000000A#32).toNat / 2 ^ 28 ∧
    (0x3ABCDE0A#32).toNat / 2 ^ 28 ≠ 13 ∧
    (0x3ABCDE0A#32).toNat % 2 ^ 9 = (0x3000000A#32).toNat % 2 ^ 9 ∧
    0x3ABCDE0A#32 ≠ 0x3000000A#32 := by decide

/-- The last clause, at a form that faults with another kind. -/
theorem witness_IllegalOpcodesAloneRaiseInvalidOpcode :
    (0xE0000000#32).toNat / 2 ^ 28 = 14 ∧ (0xFFFFFFFF#32).toNat / 2 ^ 28 = 15 ∧
    (Instr.div 1 2 3).wellFormed = true ∧ demo.status = .running ∧
    exec (.div 1 2 3) demo = .next { demo with status := .faulted .divisionByZero } :=
  ⟨by decide, by decide, by decide, rfl, rfl⟩

/-- Every format S opcode has a word whose fields are read, with unused bits set: the encoding clause of
the twelve per-instruction statements of format S. -/
theorem witness_FormatS :
    FormatS 0 0x000000E2 3 4 2 ∧ FormatS 1 0x1000008C 2 1 4 ∧ FormatS 2 0x20000065 1 4 5 ∧
    FormatS 3 0x3ABCDE0A 0 1 2 ∧ FormatS 4 0x40000154 5 2 4 ∧ FormatS 5 0x5000000A 0 1 2 ∧
    FormatS 6 0x600001BF 6 7 7 ∧ FormatS 7 0x7FFFFFFF 7 7 7 ∧ FormatS 8 0x8000000B 0 1 3 ∧
    FormatS 9 0x90000003 0 0 3 ∧ FormatS 10 0xA0000001 0 0 1 ∧ FormatS 11 0xB0000003 0 0 3 ∧
    FormatS 12 0xC000003B 0 7 3 := by unfold FormatS; decide

theorem witness_FormatI : FormatI 0xDFFFFFFF 7 0x1FFFFFF ∧ FormatI 0xDA000063 5 99 := by
  unfold FormatI; decide

theorem witness_CmovMovesWhenTheConditionIsNonzero :
    (demo3 5 9 0x80000000).reg 3 ≠ 0 ∧ (demo3 5 9 0).reg 3 = 0 := by decide

theorem witness_DivWritesTheUnsignedQuotient :
    (demo3 0 7 1).reg 3 ≠ 0 ∧ (demo3 0 7 0).reg 3 = 0 := by decide

/-- The last offset of segment 1, the first beyond it, an unmapped id, and a segment of no Words. -/
theorem witness_SloadReadsTheAddressedWord :
    ((demo3 1 2 0).address 1 2 = (1, 2) ∧ (demo3 1 2 0).lenOf 1 = some 3 ∧ (2#32).toNat < (3#32).toNat) ∧
    ((demo3 2 0 0).address 1 2 = (2, 0) ∧ (demo3 2 0 0).lenOf 2 = none) ∧
    ((demo3 1 3 0).address 1 2 = (1, 3) ∧ (demo3 1 3 0).lenOf 1 = some 3) ∧
    ((demo3 3 0 0).address 1 2 = (3, 0) ∧ (demo3 3 0 0).lenOf 3 = some 0) := by decide

/-- The last offset, the all-ones id, and the all-ones offset. -/
theorem witness_SstoreWritesTheAddressedWord :
    ((demo3 1 2 5).address 1 2 = (1, 2) ∧ (demo3 1 2 5).lenOf 1 = some 3 ∧ (2#32).toNat < (3#32).toNat) ∧
    ((demo3 0xFFFFFFFF 0 5).address 1 2 = (0xFFFFFFFF, 0) ∧
      (demo3 0xFFFFFFFF 0 5).lenOf 0xFFFFFFFF = none) ∧
    ((demo3 1 0xFFFFFFFF 5).address 1 2 = (1, 0xFFFFFFFF) ∧
      (demo3 1 0xFFFFFFFF 5).lenOf 1 = some 3) := by decide

/-- `demo` with seven Words in use and a STORAGE_LIMIT. -/
def limited (l : Nat) (v3 : Word) : State := { demo3 1 0 v3 with storageLimit := some l }

/-- The last length that fits and the first that does not; an id to reuse; the last id minted; the first
that cannot be. -/
theorem witness_MapCreatesAZeroFilledSegment :
    (Fits (limited 10 3) (((limited 10 3).reg 3).toNat + (limited 10 3).seg.words) ∧
      (limited 10 3).free ≠ []) ∧
    ¬ Fits (limited 10 4) (((limited 10 4).reg 3).toNat + (limited 10 4).seg.words) ∧
    (Fits { demo with free := [], nextId := 0xFFFFFFFE } 7 ∧ (0xFFFFFFFE#32).toNat ≤ 2 ^ 32 - 2) ∧
    (Fits { demo with free := [], nextId := 0xFFFFFFFF } 7 ∧ 2 ^ 32 - 2 < (0xFFFFFFFF#32).toNat) :=
  ⟨⟨fits_of_le (l := 10) rfl (by decide), by decide⟩, not_fits_of_lt (l := 10) rfl (by decide),
    ⟨fits_of_none rfl, by decide⟩, fits_of_none rfl, by decide⟩

theorem witness_UnmapReleasesTheSegment :
    ((demo3 1 2 3).reg 1 ≠ 0 ∧ (demo3 1 2 3).mapped ((demo3 1 2 3).reg 1) = true) ∧
    (demo3 1 2 3).reg 0 = 0 ∧
    ((demo3 1 2 3).reg 2 ≠ 0 ∧ (demo3 1 2 3).mapped ((demo3 1 2 3).reg 2) = false) := by decide

theorem witness_OutputEmitsOneByte :
    ((demo3 255 256 0).reg 1).toNat ≤ 255 ∧ 255 < ((demo3 255 256 0).reg 2).toNat := by decide

/-- The last byte of the stream, and the end of the stream. -/
theorem witness_InputReadsOneByteOrTheSentinel :
    ({ demo with inPos := 1 } : State).input[1]? = some 0xFF ∧
    ({ demo with inPos := 2 } : State).input.length ≤ ({ demo with inPos := 2 } : State).inPos := by
  decide

/-- Id 0; a mapped id whose copy just fits; an unmapped id; a mapped id whose copy is one Word too
long. -/
theorem witness_LoadpCopiesThenJumps :
    (demo3 0 0 0).reg 1 = 0 ∧
    ((limited 6 0).reg 1 ≠ 0 ∧ (limited 6 0).lenOf ((limited 6 0).reg 1) = some 3 ∧
      Fits (limited 6 0) ((3#32).toNat + ((limited 6 0).seg.release 0).words)) ∧
    ((demo3 5 0 0).reg 1 ≠ 0 ∧ (demo3 5 0 0).lenOf ((demo3 5 0 0).reg 1) = none) ∧
    ((limited 5 0).reg 1 ≠ 0 ∧ (limited 5 0).lenOf ((limited 5 0).reg 1) = some 3 ∧
      ¬ Fits (limited 5 0) ((3#32).toNat + ((limited 5 0).seg.release 0).words)) :=
  ⟨by decide, ⟨by decide, by decide, fits_of_le (l := 6) rfl (by decide)⟩, ⟨by decide, by decide⟩,
    by decide, by decide, not_fits_of_lt (l := 5) rfl (by decide)⟩

/-- The last index of segment 0, and the first beyond it. -/
theorem witness_StepRunsTheDecodedInstruction :
    ({ demo with pc := 3 } : State).status = .running ∧ ({ demo with pc := 3 } : State).lenOf 0 = some 4 ∧
    (3#32).toNat < (4#32).toNat := by decide

theorem witness_FetchBeyondTheEndFaults :
    ({ demo with pc := 4 } : State).status = .running ∧ ({ demo with pc := 4 } : State).lenOf 0 = some 4 ∧
    (4#32).toNat ≤ ({ demo with pc := 4 } : State).pc.toNat := by decide

/-- `demo` with one Word of a program in segment 0. -/
def withProgram (w : Word) (s : State) : State := { s with seg := s.seg.register 0 (Segment.ofWords [w]) }

/-- Steps that fault, halt and go on: the hypotheses of FaultsChangeOnlyTheStatus,
TerminalStatesAreEnteredOnlyByHaltAndFaults and ProgramCounterMovesByOneOrByLoadProgram. -/
theorem witness_steps :
    (∃ t, step (withProgram 0xE0000000 demo) = .next t ∧ t.status = .faulted .invalidOpcode) ∧
    (∃ t, step { demo with pc := 4 } = .next t ∧ t.status = .faulted .outOfBoundsFetch) ∧
    (∃ t, step demo = .next t ∧ t.status = .halted) ∧
    (∃ t, step (withProgram 0 demo) = .next t ∧ t.status = .running) :=
  ⟨⟨_, rfl, rfl⟩, ⟨_, rfl, rfl⟩, ⟨_, rfl, rfl⟩, ⟨_, rfl, rfl⟩⟩

theorem witness_RegistersChangeOnlyAtTheDestination :
    ∃ t, exec (.add 1 2 3) (demo3 0 1 1) = .next t ∧ t.reg 1 ≠ (demo3 0 1 1).reg 1 :=
  ⟨_, rfl, by decide⟩

/-- An unread register that the instruction writes; one that is no destination; a destination that a
faulting DIV and a CMOV with a false condition do not write. -/
theorem witness_UnreadRegistersDoNotMatter :
    ((1 : Reg) ∉ sources (.add 1 2 3) ∧ Writes (.add 1 2 3) demo 1 ∧
      ∃ t, exec (.add 1 2 3) demo = .next t) ∧
    ((7 : Reg) ∉ sources (.sstore 1 2 3) ∧ ¬ Writes (.sstore 1 2 3) (demo3 1 1 5) 7 ∧
      ∃ t, exec (.sstore 1 2 3) (demo3 1 1 5) = .next t) ∧
    ((1 : Reg) ∉ sources (.div 1 2 3) ∧ ¬ Writes (.div 1 2 3) demo 1 ∧
      ∃ t, exec (.div 1 2 3) demo = .next t) ∧
    ((1 : Reg) ∉ sources (.cmov 1 2 3) ∧ ¬ Writes (.cmov 1 2 3) demo 1 ∧
      ∃ t, exec (.cmov 1 2 3) demo = .next t) :=
  have pcOf (k : FaultKind) (h : Raises (.add 1 2 3) demo k) : (1 : Word) = 0 :=
    congrArg (fun o => match o with | .next t => State.pc t | _ => 0) h
  ⟨⟨by decide, ⟨rfl, fun k h => absurd (pcOf k h) (by decide), nofun⟩, _, rfl⟩,
    ⟨by decide, fun w => (nomatch w.1), _, rfl⟩,
    ⟨by decide, fun w => w.2.1 .divisionByZero rfl, _, rfl⟩,
    by decide, fun w => w.2.2 1 2 3 rfl rfl, _, rfl⟩

/-- A store into the next Word of segment 0, and a load of another segment. -/
theorem witness_TheNextFetchSeesTheStoredProgram :
    ((demo3 0 1 5).status = .running ∧ (demo3 0 1 5).reg 1 = 0 ∧
      (demo3 0 1 5).reg 2 = (demo3 0 1 5).pc + 1 ∧
      ∃ t, exec (.sstore 1 2 3) (demo3 0 1 5) = .next t ∧ t.status = .running) ∧
    ((demo3 1 2 0).status = .running ∧ (demo3 1 2 0).reg 1 ≠ 0 ∧
      (demo3 1 2 0).memRead ((demo3 1 2 0).reg 1) ((demo3 1 2 0).reg 2) = .ok 30 ∧
      ∃ t, exec (.loadp 0 1 2) (demo3 1 2 0) = .next t ∧ t.status = .running) :=
  ⟨⟨rfl, by decide, by decide, _, rfl, rfl⟩, rfl, by decide, rfl, _, rfl, rfl⟩

/-- The two error clauses of AccessSucceedsExactlyWithinAMappedSegment. -/
theorem witness_AccessSucceedsExactlyWithinAMappedSegment :
    demo.memRead 1 3 = .error .invalidSegmentAccess ∧
    demo.memWrite 2 0 5 = .error .invalidSegmentAccess := ⟨rfl, rfl⟩

/-- An instruction that completes for each of the five clauses; for MAP an id at hand and a length that
just fits, one that does not, and no id left; for UNMAP a mapped id, id 0 and an unmapped id. -/
theorem witness_OnlyFourInstructionsTouchTheTable :
    ((∃ t, exec (.map 0 1 3) (limited 10 3) = .next t) ∧ (∃ u, (limited 10 3).allocateId = .ok (2, u)) ∧
      Fits (limited 10 3) (((limited 10 3).reg 3).toNat + (limited 10 3).seg.words) ∧
      ¬ Fits (limited 10 4) (((limited 10 4).reg 3).toNat + (limited 10 4).seg.words) ∧
      (∀ id u, ({ demo with free := [], nextId := 0xFFFFFFFF } : State).allocateId ≠ .ok (id, u)) ∧
      demo.Inv) ∧
    ((∃ t, exec (.unmap 0 0 1) (demo3 1 2 3) = .next t) ∧ (demo3 1 2 3).reg 1 ≠ 0 ∧
      (demo3 1 2 3).mapped ((demo3 1 2 3).reg 1) = true ∧ (demo3 1 2 3).reg 0 = 0 ∧
      (demo3 1 2 3).mapped ((demo3 1 2 3).reg 2) = false) ∧
    (∃ t, exec (.loadp 0 1 2) (demo3 1 2 3) = .next t) ∧
    (∃ t, exec (.sstore 1 2 3) (demo3 1 2 3) = .next t) ∧
    (∃ t, exec (.nand 1 2 3) (demo3 1 2 3) = .next t) :=
  ⟨⟨⟨_, rfl⟩, ⟨_, rfl⟩, fits_of_le (l := 10) rfl (by decide), not_fits_of_lt (l := 10) rfl (by decide),
      nofun, demo_inv⟩,
    ⟨⟨_, rfl⟩, by decide, by decide, by decide, by decide⟩, ⟨_, rfl⟩, ⟨_, rfl⟩, ⟨_, rfl⟩⟩

theorem witness_CounterGrowsByOneOnlyWhenMapMints :
    ∃ t, step (withProgram 0x8000000B { demo with free := [] }) = .next t ∧
      t.nextId ≠ (withProgram 0x8000000B { demo with free := [] }).nextId :=
  ⟨_, rfl, by decide⟩

theorem witness_MapReturnsAnUnusedId :
    demo.Inv ∧ demo.status = .running ∧
    ∃ t, exec (.map 0 1 3) demo = .next t ∧ t.status = .running :=
  ⟨demo_inv, rfl, _, rfl, rfl⟩

theorem witness_FreedIdsComeBackLastFreedFirst :
    demo.storageLimit = none ∧ [5#32, 6].length = [1#32, 3].length ∧
    ∃ t, unmapAll [1, 3] demo = .ok t := ⟨rfl, rfl, _, rfl⟩

theorem witness_UnmappedIdFaultsUntilMappedAgain :
    (demo3 1 2 3).status = .running ∧
    ∃ t, exec (.unmap 0 0 1) (demo3 1 2 3) = .next t ∧ t.status = .running ∧
      ∃ id u, t.createSegment 5 = .ok (id, u) := ⟨rfl, _, rfl, rfl, _, _, rfl⟩

/-- `demo` about to copy segment 1 into segment 0. -/
def jumper : State :=
  { demo3 1 2 3 with seg := [(0, Segment.ofWords [0xC000000A, 0, 0, 0]),
      (1, Segment.ofWords [10, 20, 30]), (3, Segment.zeros 0)] }

theorem jumper_inv : jumper.Inv where
  memory := by decide
  zeroMapped := by decide
  freeOnce := by decide
  freeUnmapped := fun id h => by
    have : id = 2 := List.mem_singleton.mp h
    subst this
    decide
  minted := by
    intro id
    have h : jumper.mapped id = demo.mapped id := by
      simp only [State.mapped, Memory.segment, jumper, demo, Sparse.find]
      split_ifs <;> rfl
    rw [h]
    exact demo_inv.minted id
  counter := by decide
  inputPosition := by decide

/-- A state with the invariant that a Load Program step takes to another length of segment 0. -/
theorem witness_SegmentLengthsStayFixed :
    jumper.Inv ∧ jumper.lenOf 1 = some 3 ∧
      ∃ t, step jumper = .next t ∧ t.lenOf 0 ≠ jumper.lenOf 0 ∧ t.lenOf 1 = some 3 :=
  ⟨jumper_inv, by decide, _, rfl, by decide, by decide⟩

theorem witness_StorageLimitIsNeverPassed :
    (limited 7 0).seg.wf ∧ (limited 7 0).storageLimit = some 7 ∧ (limited 7 0).seg.words ≤ 7 ∧
    ∃ t, step (limited 7 0) = .next t := ⟨by decide, rfl, by decide, _, rfl⟩

/-- An Input step and an Output step. -/
theorem witness_StreamsMoveOnlyByInputAndOutput :
    (∃ t, step (withProgram 0xB0000003 demo) = .next t ∧ t.inPos ≠ demo.inPos) ∧
    (∃ t, step (withProgram 0xA0000000 demo) = .next t ∧ t.out ≠ demo.out) :=
  ⟨⟨_, rfl, by decide⟩, ⟨_, rfl, by decide⟩⟩

theorem witness_EmittedBytesAreNeverReadBack :
    ∃ t, step (withProgram 0xA0000000 { demo with out := [7] }) = .next t := ⟨_, rfl⟩

theorem witness_ConsumedInputIsNeverReadAgain :
    [0x42#8].length = ({ demo with inPos := 1 } : State).inPos ∧
    ({ demo with inPos := 1 } : State).inPos ≤ ({ demo with inPos := 1 } : State).input.length ∧
    ∃ t, step (withProgram 0xB0000003 { demo with inPos := 1 }) = .next t :=
  ⟨rfl, by decide, _, rfl⟩

theorem witness_StepKeepsTheInvariant : demo.Inv ∧ ∃ t, step demo = .next t := ⟨demo_inv, _, rfl⟩

theorem witness_StepKeepsTheMemoryCanonical : demo.seg.wf ∧ ∃ t, step demo = .next t :=
  ⟨by decide, _, rfl⟩

/-- Reset hypotheses: an image of two Words. BootMeetsTheInvariant and ResetEstablishesTheTabledState. -/
theorem witness_boot :
    [0xD0000048#32, 0x70000000].length < 2 ^ 32 ∧ ([] : List Word).length < 2 ^ 32 := by decide

/-- A state two steps from reset, after a MAP and an UNMAP, with an id free and the next one to hand. -/
theorem witness_ReachableStatesKeepTheAllocatorSound :
    ∃ s, [0x80000008#32, 0x90000001].length < 2 ^ 32 ∧
      Reaches (State.boot Config.regReset none [0x80000008, 0x90000001] []) s ∧
      1 ∈ s.free ∧ s.nextId = 2 ∧ ∃ t, s.allocateId = .ok (1, t) :=
  ⟨_, by decide, .tail (.tail .refl rfl) rfl, by decide, rfl, _, rfl⟩

/-- Two states, one of them terminal, that agree on STORAGE_LIMIT; and an image too long to be legal. -/
theorem witness_HostResetForgetsThePreviousRun :
    ([0x70000000#32].length < 2 ^ 32 ∧
      demo.storageLimit = ({ State.reset with status := .halted } : State).storageLimit) ∧
    ∃ prog : List Word, 2 ^ 32 ≤ prog.length :=
  ⟨⟨by decide, rfl⟩, List.replicate (2 ^ 32) 0, by rw [List.length_replicate]⟩

/-- A file of whole Words, and one that is a byte short. -/
theorem witness_LoaderAssemblesBigEndianWords :
    [0x70#8, 0, 0, 0].length % 4 = 0 ∧ [0x70#8, 0, 0, 0][4 * 0 + 3]? = some 0 ∧
    [0x70#8, 0, 0].length % 4 ≠ 0 := by decide

end Sys2Proof.Tests
end

section
/-! SUPPORT. What one instruction can change, said once: `Change i s t` groups the cases of `Effect` by the
piece of state they touch, so that an invariant is proved by one split of twelve cases. -/

namespace Sys2Proof.Machine

open Sys2Proof.Claims

/-- Everything that executing `i` can turn `s` into. -/
inductive Change (i : Instr) (s t : State) : Prop where
  /-- Nothing but `pc` (a CMOV with a false condition, R80). -/
  | moved (ht : t = s.advance)
  /-- The destination register and `pc`. -/
  | wrote {d : Reg} {w : Word} (hd : destination i = some d) (ht : t = (s.setReg d w).advance)
  /-- The status, by HALT (R120). -/
  | halted {a b c : Reg} (hi : i = .halt a b c) (ht : t = { s with status := .halted })
  /-- The status, by one of the instruction's own faults (R161, R171). -/
  | faulted {k : FaultKind} (hk : k ∈ tabledFaults i) (ht : t = s.withFault k)
  /-- One Word of a mapped segment, by SSTORE (R91). -/
  | stored {a b c : Reg} {g : Segment} (hi : i = .sstore a b c)
      (hg : s.seg.segment (s.reg a) = some g) (hoff : (s.reg b).toNat < g.len.toNat)
      (ht : t = State.advance
        { s with seg := s.seg.register (s.reg a) (g.write (s.reg b) (s.reg c)) })
  /-- A new segment under the id on top of the free stack, by MAP (R95, R99). -/
  | reused {a b c : Reg} {id : Word} {rest : List Word} (hi : i = .map a b c)
      (hfree : s.free = id :: rest)
      (ht : t = (State.setReg { s with
        free := rest, seg := s.seg.register id (Segment.zeros (s.reg c)) } b id).advance)
  /-- A new segment under the counter's id, by MAP (R95, R99). -/
  | minted {a b c : Reg} (hi : i = .map a b c) (hfree : s.free = []) (hid : s.nextId ≤ idMax)
      (ht : t = (State.setReg { s with
        nextId := s.nextId + 1
        seg := s.seg.register s.nextId (Segment.zeros (s.reg c)) } b s.nextId).advance)
  /-- A segment unbound and its id freed, by UNMAP (R100). -/
  | released {a b c : Reg} (hi : i = .unmap a b c) (h0 : s.reg c ≠ 0)
      (hm : s.mapped (s.reg c) = true)
      (ht : t = State.advance
        { s with seg := s.seg.release (s.reg c), free := s.reg c :: s.free })
  /-- One more byte of output, by OUT (R110). -/
  | emitted {a b c : Reg} (hi : i = .output a b c) (hc : (s.reg c).toNat ≤ 255)
      (ht : t = (s.outputByte ((s.reg c).setWidth 8)).advance)
  /-- A register, and one more byte of the input consumed, by IN (R111, R113). -/
  | consumed {a b c : Reg} {byte : Byte} (hi : i = .input a b c)
      (hbyte : s.input[s.inPos]? = some byte)
      (ht : t = (State.setReg { s with inPos := s.inPos + 1 } c (byte.setWidth 32)).advance)
  /-- Nothing but `pc`, by LOADP of segment 0 (R121). -/
  | jumped {a b c : Reg} (hi : i = .loadp a b c) (ht : t = s.setPc (s.reg c))
  /-- Segment 0 and `pc`, by LOADP of another segment (R121). -/
  | copied {a b c : Reg} {g : Segment} (hi : i = .loadp a b c)
      (hg : s.seg.segment (s.reg b) = some g)
      (ht : t = State.setPc { s with seg := s.seg.register 0 g } (s.reg c))

namespace State

variable {s : State}

/-- A read fails only with InvalidSegmentAccess (R36). -/
theorem memRead_eq_error {id off : Word} {k : FaultKind} (h : s.memRead id off = .error k) :
    k = .invalidSegmentAccess :=
  translate_eq_error (map_eq_error.1 h)

/-- A write fails only with InvalidSegmentAccess (R37). -/
theorem memWrite_eq_error {id off v : Word} {k : FaultKind} (h : s.memWrite id off v = .error k) :
    k = .invalidSegmentAccess :=
  translate_eq_error (map_eq_error.1 h)

/-- `Create` fails only for want of storage or of ids (R156, R170). -/
theorem createSegment_error_kind {n : Word} {k : FaultKind} (h : s.createSegment n = .error k) :
    k = .storageExhausted ∨ k = .idSpaceExhausted := by
  obtain ⟨-, hk⟩ | ⟨-, ha⟩ := createSegment_eq_error.1 h
  · exact .inl hk
  · obtain ⟨-, -, hk⟩ := allocateId_eq_error.1 ha
    exact .inr hk

/-- `Delete` fails only for id 0 or an unmapped id (R154, R155). -/
theorem deleteSegment_error_kind {id : Word} {k : FaultKind} (h : s.deleteSegment id = .error k) :
    k = .unmapReservedSegment ∨ k = .invalidSegmentAccess := by
  obtain ⟨-, hk⟩ | ⟨-, -, hk⟩ := deleteSegment_eq_error.1 h
  exacts [.inl hk, .inr hk]

/-- Load Program's copy fails only for an unmapped id or for want of storage (R154, R170). -/
theorem copyToZero_error_kind {id : Word} {k : FaultKind} (h : s.copyToZero id = .error k) :
    k = .invalidSegmentAccess ∨ k = .storageExhausted := by
  obtain ⟨-, ⟨-, hk⟩ | ⟨-, -, -, hk⟩⟩ := copyToZero_eq_error.1 h
  exacts [.inl hk, .inr hk]

/-- A fetch is a read of segment 0 at `pc` with a fault kind of its own (R38). -/
theorem memRead_of_fetch {w : Word} (h : s.fetch = .ok w) : s.memRead 0 s.pc = .ok w :=
  memRead_eq_ok.2 (fetch_eq_ok.1 h)

/-- A fetch fails only at or beyond the end of segment 0 (R38, R157). -/
theorem pc_beyond_of_fetch_error {k : FaultKind} (h : s.fetch = .error k) {n : Word}
    (hn : s.lenOf 0 = some n) : n.toNat ≤ s.pc.toNat := by
  obtain ⟨g, hg, rfl⟩ := Option.map_eq_some_iff.1 hn
  by_contra hlt
  rw [fetch_eq_ok.2 ⟨g, hg, Nat.lt_of_not_le hlt, rfl⟩] at h
  cases h

end State

/-- Executing an instruction makes one of the listed changes. -/
theorem exec_change {i : Instr} {s t : State} (h : exec i s = .next t) : Change i s t := by
  have h := exec_eq_next.1 h
  cases i with
  | cmov a b c =>
    obtain ⟨-, rfl⟩ | ⟨-, rfl⟩ := h
    exacts [.wrote rfl rfl, .moved rfl]
  | sload a b c =>
    obtain ⟨v, -, rfl⟩ | ⟨k, hk, rfl⟩ := h
    · exact .wrote rfl rfl
    · exact .faulted (by simp [tabledFaults, State.memRead_eq_error hk]) rfl
  | sstore a b c =>
    obtain ⟨u, hu, rfl⟩ | ⟨k, hk, rfl⟩ := h
    · obtain ⟨g, hg, hoff, rfl⟩ := State.memWrite_eq_ok.1 hu
      exact .stored rfl hg hoff rfl
    · exact .faulted (by simp [tabledFaults, State.memWrite_eq_error hk]) rfl
  | add a b c => exact .wrote rfl h
  | mul a b c => exact .wrote rfl h
  | div a b c =>
    obtain ⟨-, rfl⟩ | ⟨-, rfl⟩ := h
    exacts [.wrote rfl rfl, .faulted (by simp [tabledFaults]) rfl]
  | nand a b c => exact .wrote rfl h
  | halt a b c => exact .halted rfl h
  | map a b c =>
    obtain ⟨id, u, hu, rfl⟩ | ⟨k, hk, rfl⟩ := h
    · obtain ⟨-, v, hv, rfl⟩ := State.createSegment_eq_ok.1 hu
      obtain ⟨rest, hfree, rfl⟩ | ⟨hfree, hid, rfl, rfl⟩ := State.allocateId_eq_ok.1 hv
      · exact .reused rfl hfree rfl
      · exact .minted rfl hfree hid rfl
    · exact .faulted (by simpa [tabledFaults] using (State.createSegment_error_kind hk).symm) rfl
  | unmap a b c =>
    obtain ⟨u, hu, rfl⟩ | ⟨k, hk, rfl⟩ := h
    · obtain ⟨h0, hm, rfl⟩ := State.deleteSegment_eq_ok.1 hu
      exact .released rfl h0 hm rfl
    · exact .faulted (by simpa [tabledFaults] using State.deleteSegment_error_kind hk) rfl
  | output a b c =>
    obtain ⟨hc, rfl⟩ | ⟨-, rfl⟩ := h
    · exact .emitted rfl hc rfl
    · exact .faulted (by simp [tabledFaults]) rfl
  | input a b c =>
    obtain ⟨byte, hbyte, hw⟩ | ⟨-, hw⟩ := State.inputWord_cases s
    · exact .consumed rfl hbyte (by rw [h, hw])
    · exact .wrote rfl (by rw [h, hw])
  | loadp a b c =>
    obtain ⟨u, hu, rfl⟩ | ⟨k, hk, rfl⟩ := h
    · obtain ⟨-, rfl⟩ | ⟨-, g, hg, -, rfl⟩ := State.copyToZero_eq_ok.1 hu
      · exact .jumped rfl rfl
      · exact .copied rfl hg rfl
    · exact .faulted (by simpa [tabledFaults] using State.copyToZero_error_kind hk) rfl
  | loadi a imm => exact .wrote rfl h
  | illegal14 => exact .faulted (by simp [tabledFaults]) h
  | illegal15 => exact .faulted (by simp [tabledFaults]) h

/-- Everything a step can be: a fetch at or beyond the end of segment 0, which faults, or the
instruction that the Word at `pc` decodes to. -/
theorem step_cases {s t : State} (h : step s = .next t) :
    s.status = .running ∧
      ((t = s.withFault .outOfBoundsFetch ∧ ∀ n, s.lenOf 0 = some n → n.toNat ≤ s.pc.toNat) ∨
        ∃ w, s.memRead 0 s.pc = .ok w ∧ exec (decode w) s = .next t) := by
  obtain ⟨hs, ⟨hf, ht⟩ | ⟨w, hw, he⟩⟩ := step_eq_next.1 h
  · exact ⟨hs, .inl ⟨ht, fun _ hn => State.pc_beyond_of_fetch_error hf hn⟩⟩
  · exact ⟨hs, .inr ⟨w, State.memRead_of_fetch hw, he⟩⟩

/-- What every fault entry and every instruction keeps, every step keeps. -/
theorem step_keeps {P : State → Prop} (hfault : ∀ s k, P s → P (s.withFault k))
    (hexec : ∀ i s t, Change i s t → P s → P t) {s t : State} (hs : P s) (h : step s = .next t) :
    P t := by
  obtain ⟨-, ⟨rfl, -⟩ | ⟨w, -, he⟩⟩ := step_cases h
  · exact hfault s _ hs
  · exact hexec _ s t (exec_change he) hs

end Sys2Proof.Machine
end

section
/-! SUPPORT. The invariants of Safety.lean: how they depend on the pieces of state, and one lemma for
each change of the allocator. -/

namespace Sys2Proof.Machine

namespace State

variable {s t : State} {id : Word} {g : Segment}

/-! ### What is mapped, and how long, after each change of the table -/

theorem mapped_of_register (h : t.seg = s.seg.register id g) (q : Word) :
    t.mapped q = true ↔ q = id ∨ s.mapped q = true := by
  simp only [mapped, h, Memory.segment_register]
  by_cases hq : q = id <;> simp [hq]

theorem mapped_of_release (h : t.seg = s.seg.release id) (q : Word) :
    t.mapped q = true ↔ q ≠ id ∧ s.mapped q = true := by
  simp only [mapped, h, Memory.segment_release]
  by_cases hq : q = id <;> simp [hq]

/-- Binding a mapped id anew leaves what is mapped. -/
theorem mapped_of_rebind (h : t.seg = s.seg.register id g) (hid : s.mapped id = true) (q : Word) :
    t.mapped q = s.mapped q := by
  rw [Bool.eq_iff_iff, mapped_of_register h]
  exact or_iff_right_of_imp fun hq => hq ▸ hid

theorem mapped_of_segment (h : s.seg.segment id = some g) : s.mapped id = true := by
  simp [mapped, h]

theorem lenOf_of_register (h : t.seg = s.seg.register id g) (q : Word) :
    t.lenOf q = if q = id then some g.len else s.lenOf q := by
  simp only [lenOf, h, Memory.segment_register]
  split <;> rfl

theorem lenOf_of_release (h : t.seg = s.seg.release id) (q : Word) :
    t.lenOf q = if q = id then none else s.lenOf q := by
  simp only [lenOf, h, Memory.segment_release]
  split <;> rfl

theorem lenOf_eq_none : s.lenOf id = none ↔ s.mapped id = false := by
  simp [lenOf, mapped]

/-! ### The counter (10_state.md R17) -/

theorem toNat_le_of_le_idMax {n : Word} (h : n ≤ idMax) : n.toNat ≤ 2 ^ 32 - 2 := h

/-- Below its limit the counter counts without wrapping. -/
theorem toNat_succ_of_le_idMax {n : Word} (h : n ≤ idMax) : (n + 1).toNat = n.toNat + 1 := by
  have := toNat_le_of_le_idMax h
  rw [BitVec.toNat_add]
  exact Nat.mod_eq_of_lt (by simp; omega)

/-! ### The invariants -/

namespace Inv

/-- The next id of the counter is not 0. -/
theorem nextId_ne_zero (h : s.Inv) : s.nextId ≠ 0 := by
  intro h0
  have := h.counter
  simp [h0] at this

/-- Every id from the counter on is unmapped (R19 (e)), and not free. -/
theorem fresh (h : s.Inv) (hid : s.nextId.toNat ≤ id.toNat) : s.mapped id = false ∧ id ∉ s.free := by
  have h0 : id ≠ 0 := by
    rintro rfl
    exact absurd h.counter (by simpa using hid)
  have := (not_congr (h.minted id h0)).1 (Nat.not_lt.2 hid)
  simpa using this

/-- The id at hand for the next allocation is not 0 and not mapped (R19 (b), (e)). -/
theorem allocateId_unmapped (h : s.Inv) (ha : s.allocateId = .ok (id, t)) :
    id ≠ 0 ∧ s.mapped id = false := by
  obtain ⟨rest, hfree, -⟩ | ⟨-, -, rfl, -⟩ := allocateId_eq_ok.1 ha
  · exact h.freeUnmapped id (by simp [hfree])
  · exact ⟨h.nextId_ne_zero, (h.fresh le_rfl).1⟩

/-- The invariants see of the table which ids are mapped, and its form. -/
theorem of_same_mapped (h : s.Inv) (hmem : t.seg.wf) (hmapped : ∀ q, t.mapped q = s.mapped q)
    (hnext : t.nextId = s.nextId) (hfree : t.free = s.free) (hin : t.inPos ≤ t.input.length) :
    t.Inv where
  memory := hmem
  zeroMapped := (hmapped 0).trans h.zeroMapped
  freeOnce := hfree ▸ h.freeOnce
  freeUnmapped := by simpa [hfree, hmapped] using h.freeUnmapped
  minted := by simpa [hnext, hfree, hmapped] using h.minted
  counter := hnext ▸ h.counter
  inputPosition := hin

/-- Mapping the id on top of the free stack keeps the invariants. -/
theorem of_reuse (h : s.Inv) (hmem : t.seg.wf) (hpop : s.free = id :: t.free)
    (hseg : t.seg = s.seg.register id g) (hnext : t.nextId = s.nextId)
    (hin : t.inPos ≤ t.input.length) : t.Inv := by
  obtain ⟨hid, hrest⟩ : id ∉ t.free ∧ t.free.Nodup := List.nodup_cons.1 (hpop ▸ h.freeOnce)
  have hmapped := mapped_of_register hseg
  refine ⟨hmem, (hmapped 0).2 (.inr h.zeroMapped), hrest, fun q hq => ?_, fun q h0 => ?_,
    hnext ▸ h.counter, hin⟩
  · obtain ⟨h0, hu⟩ := h.freeUnmapped q (by simp [hpop, hq])
    have hne : q ≠ id := fun e => hid (e ▸ hq)
    exact ⟨h0, by rw [Bool.eq_false_iff, ne_eq, hmapped]; simp [hne, hu]⟩
  · rw [hnext, h.minted q h0, hmapped, hpop, List.mem_cons]
    tauto

/-- Minting an id keeps the invariants. -/
theorem of_mint (h : s.Inv) (hmem : t.seg.wf) (hempty : s.free = []) (hid : s.nextId ≤ idMax)
    (hseg : t.seg = s.seg.register s.nextId g) (hnext : t.nextId = s.nextId + 1)
    (hfree : t.free = s.free) (hin : t.inPos ≤ t.input.length) : t.Inv := by
  have hmapped := mapped_of_register hseg
  have hcount : t.nextId.toNat = s.nextId.toNat + 1 := hnext ▸ toNat_succ_of_le_idMax hid
  have hnone : t.free = [] := hfree.trans hempty
  refine ⟨hmem, (hmapped 0).2 (.inr h.zeroMapped), by simp [hnone], by simp [hnone],
    fun q h0 => ?_, by omega, hin⟩
  have hold := h.minted q h0
  rw [hempty] at hold
  rw [hmapped, hnone, hcount, or_assoc, ← hold, Nat.lt_succ_iff, Nat.le_iff_lt_or_eq, or_comm,
    BitVec.toNat_inj]

/-- Unmapping a segment and freeing its id keeps the invariants. -/
theorem of_release (h : s.Inv) (hmem : t.seg.wf) (h0 : id ≠ 0) (hm : s.mapped id = true)
    (hseg : t.seg = s.seg.release id) (hfree : t.free = id :: s.free)
    (hnext : t.nextId = s.nextId) (hin : t.inPos ≤ t.input.length) : t.Inv := by
  have hmapped := mapped_of_release hseg
  have hid : id ∉ s.free := fun hf => by simpa [hm] using (h.freeUnmapped id hf).2
  have hgone : t.mapped id = false := by rw [Bool.eq_false_iff, ne_eq, hmapped]; simp
  refine ⟨hmem, (hmapped 0).2 ⟨h0.symm, h.zeroMapped⟩, hfree ▸ List.nodup_cons.2 ⟨hid, h.freeOnce⟩,
    fun q hq => ?_, fun q hq0 => ?_, hnext ▸ h.counter, hin⟩
  · rw [hfree, List.mem_cons] at hq
    obtain rfl | hq := hq
    · exact ⟨h0, hgone⟩
    · obtain ⟨hq0, hu⟩ := h.freeUnmapped q hq
      exact ⟨hq0, by rw [Bool.eq_false_iff, ne_eq, hmapped]; simp [hu]⟩
  · rw [hnext, h.minted q hq0, hmapped, hfree, List.mem_cons]
    by_cases hq : q = id
    · simp [hq, hm]
    · simp [hq]

end Inv

end State

/-! ### Every change keeps them -/

namespace Change

variable {i : Instr} {s t : State}

/-- Every change keeps the canonical form of the memory (log 1). -/
theorem keeps_wf (hc : Change i s t) (h : s.seg.wf) : t.seg.wf := by
  cases hc with
  | stored _ hg hoff ht =>
    subst ht
    exact Memory.wf_register h _ (Segment.wf_write (Memory.wf_segment h hg) hoff _)
  | reused _ _ ht | minted _ _ _ ht => subst ht; exact Memory.wf_register h _ (Segment.wf_zeros _)
  | released _ _ _ ht => subst ht; exact Memory.wf_release h _
  | copied _ hg ht => subst ht; exact Memory.wf_register h _ (Memory.wf_segment h hg)
  | _ => rename_i ht; subst ht; exact h

/-- Every change keeps the input position within the stream (R20). -/
theorem keeps_inputPosition (hc : Change i s t) (h : s.inPos ≤ s.input.length) :
    t.inPos ≤ t.input.length := by
  cases hc with
  | consumed _ hbyte ht =>
    subst ht
    obtain ⟨hlt, -⟩ := List.getElem?_eq_some_iff.1 hbyte
    exact hlt
  | _ => rename_i ht; subst ht; exact h

/-- Every change keeps the invariants. -/
theorem keeps_inv (hc : Change i s t) (h : s.Inv) : t.Inv := by
  have hmem : t.seg.wf := hc.keeps_wf h.memory
  have hin : t.inPos ≤ t.input.length := hc.keeps_inputPosition h.inputPosition
  cases hc with
  | stored _ hg _ ht =>
    subst ht
    exact h.of_same_mapped hmem (State.mapped_of_rebind rfl (State.mapped_of_segment hg)) rfl rfl hin
  | reused _ hfree ht => subst ht; exact h.of_reuse hmem hfree rfl rfl hin
  | minted _ hfree hid ht => subst ht; exact h.of_mint hmem hfree hid rfl rfl rfl hin
  | released _ h0 hm ht => subst ht; exact h.of_release hmem h0 hm rfl rfl rfl hin
  | copied _ _ ht =>
    subst ht
    exact h.of_same_mapped hmem (State.mapped_of_rebind rfl h.zeroMapped) rfl rfl hin
  | _ => rename_i ht; subst ht; exact h.of_same_mapped hmem (fun _ => rfl) rfl rfl hin

end Change

end Sys2Proof.Machine
end

section
/-! PROOFS. The allocator's invariants at reset, at every step and along every run (10_state.md R15, R16,
R17, R19, R26). -/

namespace Sys2Proof.Proofs

open Sys2Proof.Machine Sys2Proof.Claims

/-- Every step keeps the invariants. -/
theorem step_keeps_inv {s t : State} (hs : s.Inv) (h : step s = .next t) : t.Inv :=
  step_keeps (P := State.Inv)
    (fun _ _ hs => hs.of_same_mapped hs.memory (fun _ => rfl) rfl rfl hs.inputPosition)
    (fun _ _ _ hc hs => hc.keeps_inv hs) hs h

/-- Settles O41: the fault entry touches nothing the invariants see, and an instruction makes one of the
changes of `Change`, each of which keeps them. -/
theorem stepKeepsTheInvariant : Obligations.StepKeepsTheInvariant :=
  fun _ _ hs h => step_keeps_inv hs h

/-- Settles O43, change by change. -/
theorem stepKeepsTheMemoryCanonical : Obligations.StepKeepsTheMemoryCanonical :=
  fun _ _ hs h => step_keeps (P := fun s => s.seg.wf) (fun _ _ hs => hs)
    (fun _ _ _ hc hs => hc.keeps_wf hs) hs h

/-! ### The state right after reset (10_state.md R26) -/

section Boot

variable (regs : Vector Word 8) (limit : Option Nat) (prog : List Word) (input : List Byte)

/-- Right after reset id 0 is bound to the image and no other id is bound. -/
theorem boot_segment (id : Word) :
    (State.boot regs limit prog input).seg.segment id
      = if id = 0 then some (Segment.ofWords prog) else none := by
  have h0 : (0 = id.toNat) ↔ id = 0 := by rw [← BitVec.toNat_inj, eq_comm]; rfl
  simp only [State.boot, Memory.segment, Sparse.find_cons, Sparse.find_nil, h0]

theorem boot_mapped (id : Word) :
    (State.boot regs limit prog input).mapped id = true ↔ id = 0 := by
  rw [State.mapped, boot_segment]
  split <;> simp_all

variable {prog}

/-- The Words of segment 0 right after reset are those of the image. -/
theorem boot_memRead (hlen : prog.length < 2 ^ 32) {i : Nat} (hi : i < prog.length) :
    (State.boot regs limit prog input).memRead 0 (BitVec.ofNat 32 i) = .ok prog[i] := by
  have hnat : (BitVec.ofNat 32 i).toNat = i := by
    rw [BitVec.toNat_ofNat, Nat.mod_eq_of_lt (hi.trans hlen)]
  refine State.memRead_eq_ok.2 ⟨_, (boot_segment regs limit prog input 0).trans (if_pos rfl), ?_, ?_⟩
  · rwa [hnat, Segment.ofWords_len hlen]
  · simp [Segment.read_ofWords, hnat, hi]

/-- The state right after reset meets the invariants: id 0 alone is mapped, no id is free, and the
counter stands at 1. -/
theorem boot_inv (hlen : prog.length < 2 ^ 32) : (State.boot regs limit prog input).Inv where
  memory := Memory.wf_image hlen
  zeroMapped := (boot_mapped regs limit prog input 0).2 rfl
  freeOnce := List.nodup_nil
  freeUnmapped := fun _ h => nomatch h
  minted := fun id h0 => by
    have hpos : ¬ id.toNat < 1 := fun h => h0 (BitVec.eq_of_toNat_eq (by simpa using h))
    rw [boot_mapped]
    exact ⟨fun h => absurd h hpos, fun h => h.elim (absurd · h0) nofun⟩
  counter := le_rfl
  inputPosition := Nat.zero_le _

end Boot

/-- Settles O42. -/
theorem bootMeetsTheInvariant : Obligations.BootMeetsTheInvariant :=
  fun regs limit _ input hlen => boot_inv regs limit input hlen

/-- Settles O45: the table is read off the one segment that reset binds. -/
theorem resetEstablishesTheTabledState : Obligations.ResetEstablishesTheTabledState := by
  rintro regs limit prog input s hlen rfl
  have hlen0 : (State.boot regs limit prog input).lenOf 0 = some (BitVec.ofNat 32 prog.length) := by
    rw [State.lenOf, boot_segment, if_pos rfl]; rfl
  have hother : ∀ id, id ≠ 0 → (State.boot regs limit prog input).mapped id = false :=
    fun id h0 => Bool.eq_false_iff.2 fun h => h0 ((boot_mapped regs limit prog input id).1 h)
  exact ⟨rfl, rfl, hlen0, fun _ hi => boot_memRead regs limit input hlen hi, hother, rfl, rfl,
    fun _ => rfl, rfl, rfl, rfl⟩

/-- Settles O46: the host's reset reads nothing of the old state but STORAGE_LIMIT. -/
theorem hostResetForgetsThePreviousRun : Obligations.HostResetForgetsThePreviousRun := by
  refine fun s s' prog input => ⟨fun hlen hlim => ?_, fun hlen => if_neg (Nat.not_lt.2 hlen)⟩
  have hreset (u : State) : hostReset u prog input
      = .next (State.boot (Vector.replicate 8 0) u.storageLimit prog input) := if_pos hlen
  exact ⟨_, hreset s, hlim ▸ hreset s', rfl, boot_inv _ _ _ hlen, rfl,
    fun r => Vector.getElem_replicate r.isLt⟩

/-! ### Every state reached from reset (10_state.md R19) -/

/-- The invariants hold along every run that starts with them. -/
theorem reaches_keeps_inv {s t : State} (hs : s.Inv) (h : Reaches s t) : t.Inv := by
  induction h with
  | refl => exact hs
  | tail _ hstep ih => exact step_keeps_inv ih hstep

/-- R19 (b): a free id is unmapped, not 0, and free once. -/
theorem inv_free {s : State} (h : s.Inv) {id : Word} (hid : id ∈ s.free) :
    s.mapped id = false ∧ id ≠ 0 ∧ s.free.count id = 1 := by
  obtain ⟨h0, hu⟩ := h.freeUnmapped id hid
  exact ⟨hu, h0, List.count_eq_one_of_mem h.freeOnce hid⟩

/-- R19 (c), (d): the non-zero ids mapped or free are exactly 1 to `next_id - 1`. -/
theorem inv_minted_range {s : State} (h : s.Inv) {id : Word} (h0 : id ≠ 0) :
    (s.mapped id = true ∨ id ∈ s.free) ↔ 1 ≤ id.toNat ∧ id.toNat ≤ s.nextId.toNat - 1 := by
  have hpos : id.toNat ≠ 0 := fun e => h0 (BitVec.eq_of_toNat_eq e)
  have hcounter := h.counter
  rw [← h.minted id h0]
  omega

/-- Settles O44: the invariants hold at reset and along every run, and the clauses of R19 follow from
them; the all-ones id lies at or beyond every value of the counter. -/
theorem reachableStatesKeepTheAllocatorSound : Obligations.ReachableStatesKeepTheAllocatorSound := by
  intro regs limit prog input s hlen hreach
  have hs : s.Inv := reaches_keeps_inv (boot_inv regs limit input hlen) hreach
  have hsentinel : s.nextId.toNat ≤ (0xFFFFFFFF : Word).toNat := Nat.le_of_lt_succ s.nextId.isLt
  exact ⟨hs.zeroMapped, fun _ hid => inv_free hs hid,
    fun _ ⟨hm, hid⟩ => by simp [(inv_free hs hid).1] at hm,
    fun _ h0 => inv_minted_range hs h0, fun _ hid => (hs.fresh hid).1, hs.fresh hsentinel,
    fun _ _ ha => (hs.allocateId_unmapped ha).2⟩

end Sys2Proof.Proofs
end

section
/-! PROOFS. What one step can change of each piece of state (10_state.md R11, R13, R15, R17, R20, R21). -/

namespace Sys2Proof.Machine.Change

open Sys2Proof.Claims

variable {i : Instr} {s t : State}

/-- The status changes only to Halted by HALT, or by a fault of the instruction, and then alone (R13). -/
theorem status_cases (hc : Change i s t) :
    t.status = s.status ∨ (∃ a b c, i = .halt a b c ∧ t = { s with status := .halted }) ∨
      ∃ k ∈ tabledFaults i, t = s.withFault k := by
  cases hc with
  | halted hi ht => exact .inr (.inl ⟨_, _, _, hi, ht⟩)
  | faulted hk ht => exact .inr (.inr ⟨_, hk, ht⟩)
  | _ => rename_i ht; subst ht; exact .inl rfl

/-- A register changes only as the instruction's destination (10_state.md, the table after R11). -/
theorem destination_of_reg_ne (hc : Change i s t) {r : Reg} (hr : t.reg r ≠ s.reg r) :
    destination i = some r := by
  have written {u : State} {d : Reg} {w : Word} (hu : u.x = s.x)
      (h : (u.setReg d w).reg r ≠ s.reg r) : d = r := by
    by_contra hne
    exact h ((u.reg_setReg_ne (Ne.symm hne) w).trans (State.reg_congr hu r))
  cases hc with
  | wrote hd ht => subst ht; exact written rfl hr ▸ hd
  | reused hi _ ht | minted hi _ _ ht | consumed hi _ ht =>
    subst ht hi; exact congrArg some (written rfl hr)
  | _ => rename_i ht; subst ht; exact absurd rfl hr

/-- The counter changes only when MAP mints (R17). -/
theorem minted_of_nextId_ne (hc : Change i s t) (hn : t.nextId ≠ s.nextId) :
    s.free = [] ∧ s.nextId ≤ idMax ∧ t.nextId = s.nextId + 1 ∧
      ∃ a b c, i = .map a b c ∧ t.reg b = s.nextId := by
  cases hc with
  | minted hi hfree hid ht => subst ht; exact ⟨hfree, hid, rfl, _, _, _, hi, by simp⟩
  | _ => rename_i ht; subst ht; exact absurd rfl hn

/-- INSTREAM is fixed at reset (R20). -/
theorem input_eq (hc : Change i s t) : t.input = s.input := by
  cases hc with
  | _ => rename_i ht; subst ht; rfl

/-- The input position moves only at an IN that reads a byte, by one (R20). -/
theorem consumed_of_inPos_ne (hc : Change i s t) (hp : t.inPos ≠ s.inPos) :
    t.inPos = s.inPos + 1 ∧ s.inPos < s.input.length ∧ ∃ a b c, i = .input a b c := by
  cases hc with
  | consumed hi hbyte ht =>
    subst ht
    obtain ⟨hlt, -⟩ := List.getElem?_eq_some_iff.1 hbyte
    exact ⟨rfl, hlt, _, _, _, hi⟩
  | _ => rename_i ht; subst ht; exact absurd rfl hp

/-- The output grows only at an OUT, by the one byte that the register holds (R21). -/
theorem emitted_of_out_ne (hc : Change i s t) (ho : t.out ≠ s.out) :
    ∃ byte, t.out = s.out ++ [byte] ∧
      ∃ a b c, i = .output a b c ∧ (s.reg c).toNat = byte.toNat := by
  cases hc with
  | emitted hi hle ht =>
    subst ht
    refine ⟨_, rfl, _, _, _, hi, ?_⟩
    rw [BitVec.toNat_setWidth, Nat.mod_eq_of_lt (by omega)]
  | _ => rename_i ht; subst ht; exact absurd rfl ho

/-- The length at an id that stays mapped changes only at LOADP's copy, which changes that of id 0 (R15).
A new segment's id was unmapped before. -/
theorem lenOf_cases (hc : Change i s t) (hs : s.Inv) (id : Word) :
    t.lenOf id = s.lenOf id ∨ s.lenOf id = none ∨ (id ≠ 0 ∧ t.lenOf id = none) ∨
      (id = 0 ∧ ∃ a b c, i = .loadp a b c) := by
  have bound {new : Word} {g : Segment} (ht : t.seg = s.seg.register new g)
      (hnew : s.mapped new = false) : t.lenOf id = s.lenOf id ∨ s.lenOf id = none := by
    by_cases he : id = new
    · exact .inr (State.lenOf_eq_none.2 (he ▸ hnew))
    · exact .inl ((State.lenOf_of_register ht id).trans (if_neg he))
  cases hc with
  | stored _ hg _ ht =>
    subst ht
    refine .inl ((State.lenOf_of_register rfl id).trans ?_)
    split
    · next he => simp [he, State.lenOf, hg]
    · rfl
  | reused _ hfree ht =>
    subst ht
    exact (bound rfl (hs.freeUnmapped _ (by simp [hfree])).2).imp_right .inl
  | minted _ _ _ ht => subst ht; exact (bound rfl (hs.fresh le_rfl).1).imp_right .inl
  | @released _ _ c _ h0 _ ht =>
    subst ht
    by_cases he : id = s.reg c
    · exact .inr (.inr (.inl ⟨he ▸ h0, (State.lenOf_of_release rfl id).trans (if_pos he)⟩))
    · exact .inl ((State.lenOf_of_release rfl id).trans (if_neg he))
  | copied hi _ ht =>
    subst ht
    by_cases he : id = 0
    · exact .inr (.inr (.inr ⟨he, _, _, _, hi⟩))
    · exact .inl ((State.lenOf_of_register rfl id).trans (if_neg he))
  | _ => rename_i ht; subst ht; exact .inl rfl

end Sys2Proof.Machine.Change

namespace Sys2Proof.Proofs

open Sys2Proof.Machine Sys2Proof.Claims

/-- ProgramLoadError is the loader's own kind, and no instruction's (R158, D18). -/
theorem programLoadError_not_tabled (i : Instr) : .programLoadError ∉ tabledFaults i := by
  cases i <;> simp [tabledFaults]

/-- Settles O24: the fetch's fault and the cases of `Change.status_cases`. -/
theorem terminalStatesAreEnteredOnlyByHaltAndFaults :
    Obligations.TerminalStatesAreEnteredOnlyByHaltAndFaults := by
  intro s t h
  obtain ⟨hrun, ⟨rfl, hpc⟩ | ⟨w, hw, he⟩⟩ := step_cases h
  · exact ⟨nofun, fun k hk => by cases hk; exact ⟨nofun, .inl ⟨rfl, hpc⟩⟩⟩
  obtain hkeep | ⟨a, b, c, hi, rfl⟩ | ⟨k, hk, rfl⟩ := (exec_change he).status_cases
  · rw [hkeep, hrun]
    exact ⟨nofun, nofun⟩
  · exact ⟨fun _ => ⟨w, a, b, c, hw, hi, rfl⟩, nofun⟩
  · refine ⟨nofun, fun k' hk' => ?_⟩
    cases hk'
    exact ⟨fun e => programLoadError_not_tabled _ (e ▸ hk), .inr ⟨w, hw, he, hk⟩⟩

/-- Settles O27. -/
theorem registersChangeOnlyAtTheDestination : Obligations.RegistersChangeOnlyAtTheDestination :=
  fun _ _ _ _ h hr => (exec_change h).destination_of_reg_ne hr

/-- Settles O32. -/
theorem counterGrowsByOneOnlyWhenMapMints : Obligations.CounterGrowsByOneOnlyWhenMapMints := by
  intro s t h hn
  obtain ⟨-, ⟨rfl, -⟩ | ⟨w, hw, he⟩⟩ := step_cases h
  · exact absurd rfl hn
  obtain ⟨hfree, hid, hnext, a, b, c, hi, hb⟩ := (exec_change he).minted_of_nextId_ne hn
  exact ⟨hfree, hnext ▸ State.toNat_succ_of_le_idMax hid, State.toNat_le_of_le_idMax hid,
    w, a, b, c, hw, hi, hb⟩

/-- Settles O36: `Change.lenOf_cases` at the id and at id 0, which stays mapped. -/
theorem segmentLengthsStayFixed : Obligations.SegmentLengthsStayFixed := by
  intro s t hs h
  obtain ⟨-, ⟨rfl, -⟩ | ⟨w, hw, he⟩⟩ := step_cases h
  · exact ⟨fun _ n m _ hn hm => Option.some.inj (hm.symm.trans hn), fun hne => absurd rfl hne⟩
  have hcases := (exec_change he).lenOf_cases hs
  refine ⟨fun id n m h0 hn hm => ?_, fun hne => ?_⟩
  · obtain hsame | hnone | ⟨-, hnone⟩ | ⟨hzero, -⟩ := hcases id
    · exact Option.some.inj (hm.symm.trans (hsame.trans hn))
    · simp [hnone] at hn
    · simp [hnone] at hm
    · exact absurd hzero h0
  · obtain hsame | hnone | ⟨h0, -⟩ | ⟨-, a, b, c, hi⟩ := hcases 0
    · exact absurd hsame hne
    · exact absurd (hs.zeroMapped.symm.trans (State.lenOf_eq_none.1 hnone)) nofun
    · exact absurd rfl h0
    · exact ⟨w, a, b, c, hw, hi⟩

/-- Settles O38. -/
theorem streamsMoveOnlyByInputAndOutput : Obligations.StreamsMoveOnlyByInputAndOutput := by
  intro s t h
  obtain ⟨-, ⟨rfl, -⟩ | ⟨w, hw, he⟩⟩ := step_cases h
  · exact ⟨rfl, fun hp => absurd rfl hp, fun ho => absurd rfl ho⟩
  have hc := exec_change he
  refine ⟨hc.input_eq, fun hp => ?_, fun ho => ?_⟩
  · obtain ⟨hpos, hlt, a, b, c, hi⟩ := hc.consumed_of_inPos_ne hp
    exact ⟨hpos, hlt, w, a, b, c, hw, hi⟩
  · obtain ⟨byte, hout, a, b, c, hi, hbyte⟩ := hc.emitted_of_out_ne ho
    exact ⟨byte, hout, w, a, b, c, hw, hi, hbyte⟩

end Sys2Proof.Proofs
end

section
/-! SUPPORT. Maps of the state that an operation does not see: where a map `f` commutes with every change
of state, and shows every read the same value, running in `f s` is running in `s` and applying `f` to the
answer. `TableFrame` is this for the segment table and its allocator, `CoreFrame` for the registers,
`pc` and the status too. -/

namespace Sys2Proof.Machine

/-- Apply a map to the next state of an answer. -/
def mapNext (f : State → State) :
    Host.Outcome State Fault Refusal → Host.Outcome State Fault Refusal
  | .next s => .next (f s)
  | .fault r => .fault r
  | .refused r => .refused r

/-- `f` leaves what the segment manager reads, and commutes with what it writes. -/
structure TableFrame (f : State → State) : Prop where
  seg (s : State) : (f s).seg = s.seg
  nextId (s : State) : (f s).nextId = s.nextId
  free (s : State) : (f s).free = s.free
  storageLimit (s : State) : (f s).storageLimit = s.storageLimit
  setSeg (s : State) (m : Memory) : f { s with seg := m } = { f s with seg := m }
  setNextId (s : State) (n : Word) : f { s with nextId := n } = { f s with nextId := n }
  setFree (s : State) (l : List Word) : f { s with free := l } = { f s with free := l }

namespace TableFrame

variable {f : State → State} (hf : TableFrame f) (s : State)

include hf

theorem setSegFree (m : Memory) (l : List Word) :
    f { s with seg := m, free := l } = { f s with seg := m, free := l } := by
  rw [hf.setFree { s with seg := m } l, hf.setSeg s m]

theorem getSegment (id : Word) : (f s).getSegment id = s.getSegment id := by
  simp [State.getSegment, hf.seg]

theorem memRead (id off : Word) : (f s).memRead id off = s.memRead id off :=
  State.memRead_congr (hf.seg s) id off

theorem memWrite (id off v : Word) :
    (f s).memWrite id off v = (s.memWrite id off v).map f := by
  simp only [State.memWrite, State.translate, hf.getSegment]
  cases s.getSegment id with
  | error k => rfl
  | ok g =>
    dsimp only
    split
    · rfl
    · simp only [Except.map, hf.seg]
      exact congrArg Except.ok (hf.setSeg s _).symm

theorem allocateId :
    (f s).allocateId = s.allocateId.map fun r => (r.1, f r.2) := by
  cases ha : s.allocateId with
  | error k =>
    have ha := State.allocateId_eq_error.1 ha
    rw [← hf.free, ← hf.nextId] at ha
    exact State.allocateId_eq_error.2 ha
  | ok r =>
    refine State.allocateId_eq_ok.2 ?_
    obtain ⟨rest, hfree, hr⟩ | ⟨hfree, hid, hr, hu⟩ := State.allocateId_eq_ok.1 ha
    · exact .inl ⟨rest, (hf.free s).trans hfree, hr ▸ hf.setFree s rest⟩
    · refine .inr ⟨(hf.free s).trans hfree, ?_, hr.trans (hf.nextId s).symm,
        hu ▸ (hf.setNextId s _).trans (by rw [hf.nextId])⟩
      rwa [hf.nextId]

theorem createSegment (n : Word) :
    (f s).createSegment n = (s.createSegment n).map fun r => (r.1, f r.2) := by
  simp only [State.createSegment, hf.storageLimit, hf.seg, hf.allocateId]
  split
  · cases s.allocateId with
    | error k => rfl
    | ok r =>
      simp only [Except.map, hf.seg]
      exact congrArg (fun u => Except.ok (r.1, u)) (hf.setSeg r.2 _).symm
  · rfl

theorem deleteSegment (id : Word) : (f s).deleteSegment id = (s.deleteSegment id).map f := by
  simp only [State.deleteSegment, hf.getSegment, hf.seg, hf.free]
  split
  · rfl
  · cases s.getSegment id with
    | error k => rfl
    | ok g => exact congrArg Except.ok (hf.setSegFree s _ _).symm

theorem copyToZero (id : Word) : (f s).copyToZero id = (s.copyToZero id).map f := by
  cases hc : s.copyToZero id with
  | error k =>
    have hc := State.copyToZero_eq_error.1 hc
    rw [← hf.seg, ← hf.storageLimit] at hc
    exact State.copyToZero_eq_error.2 hc
  | ok t =>
    refine State.copyToZero_eq_ok.2 ?_
    obtain ⟨h0, rfl⟩ | ⟨h0, g, hg, hfit, rfl⟩ := State.copyToZero_eq_ok.1 hc
    · exact .inl ⟨h0, rfl⟩
    · refine .inr ⟨h0, g, ?_, ?_, (hf.setSeg s _).trans (by rw [hf.seg])⟩
      · rwa [hf.seg]
      · rwa [hf.seg, hf.storageLimit]

end TableFrame

/-- `f` leaves everything but the streams, and commutes with every change of anything but the streams. -/
structure CoreFrame (f : State → State) : Prop extends TableFrame f where
  reg (s : State) (r : Reg) : (f s).reg r = s.reg r
  pc (s : State) : (f s).pc = s.pc
  status (s : State) : (f s).status = s.status
  setReg (s : State) (r : Reg) (v : Word) : f (s.setReg r v) = (f s).setReg r v
  setPc (s : State) (p : Word) : f (s.setPc p) = (f s).setPc p
  setStatus (s : State) (k : Status) : f { s with status := k } = { f s with status := k }

namespace CoreFrame

variable {f : State → State} (hf : CoreFrame f) (s : State)

include hf

theorem advance : (f s).advance = f s.advance := by
  rw [show s.advance = s.setPc (s.pc + 1) from rfl, hf.setPc, ← hf.pc]
  rfl

theorem raise (k : FaultKind) : raise k (f s) = mapNext f (raise k s) :=
  congrArg Host.Outcome.next (hf.setStatus s _).symm

theorem complete (r : Except FaultKind State) :
    complete (f s) (r.map f) = mapNext f (complete s r) := by
  cases r with
  | error k => exact hf.raise s k
  | ok t => exact congrArg Host.Outcome.next (hf.advance t)

/-- An instruction sees of such a map at most what it does to the streams. -/
theorem exec (hout : ∀ b, (f s).outputByte b = f (s.outputByte b))
    (hin : (f s).inputWord = (s.inputWord.1, f s.inputWord.2)) (i : Instr) :
    exec i (f s) = mapNext f (exec i s) := by
  have next (u : State) : Host.Outcome.next (f u).advance
      = mapNext f (.next u.advance) := congrArg Host.Outcome.next (hf.advance u)
  cases i with
  | cmov a b c =>
    simp only [Machine.exec, execCmov, hf.reg, ← hf.setReg, ← apply_ite f, next]
  | sload a b c =>
    simp only [Machine.exec, execSload, State.address, hf.reg, hf.memRead, ← hf.complete]
    cases s.memRead (s.reg b) (s.reg c) <;> simp [Except.map, hf.setReg]
  | sstore a b c =>
    simp only [Machine.exec, execSstore, State.address, hf.reg, hf.memWrite, hf.complete]
  | add a b c => simp only [Machine.exec, execAdd, hf.reg, ← hf.setReg, next]
  | mul a b c => simp only [Machine.exec, execMul, hf.reg, ← hf.setReg, next]
  | div a b c =>
    simp only [Machine.exec, execDiv, hf.reg, ← hf.setReg, ← hf.complete]
    split <;> rfl
  | nand a b c => simp only [Machine.exec, execNand, hf.reg, ← hf.setReg, next]
  | halt a b c => exact congrArg Host.Outcome.next (hf.setStatus s _).symm
  | map a b c =>
    simp only [Machine.exec, execMap, hf.reg, hf.createSegment, ← hf.complete]
    cases s.createSegment (s.reg c) <;> simp [Except.map, hf.setReg]
  | unmap a b c => simp only [Machine.exec, execUnmap, hf.reg, hf.deleteSegment, hf.complete]
  | output a b c =>
    simp only [Machine.exec, execOutput, hf.reg, hout, ← hf.complete]
    split <;> rfl
  | input a b c => simp only [Machine.exec, execInput, hin, ← hf.setReg, next]
  | loadp a b c =>
    simp only [Machine.exec, execLoadp, hf.reg, hf.copyToZero]
    cases s.copyToZero (s.reg b) with
    | error k => exact hf.raise s k
    | ok t => exact congrArg Host.Outcome.next (hf.setPc t _).symm
  | loadi a imm => simp only [Machine.exec, execLoadi, ← hf.setReg, next]
  | illegal14 => exact hf.raise s _
  | illegal15 => exact hf.raise s _

/-- A step sees of such a map at most what it does to the streams. -/
theorem step (hout : ∀ b, (f s).outputByte b = f (s.outputByte b))
    (hin : (f s).inputWord = (s.inputWord.1, f s.inputWord.2)) :
    step (f s) = mapNext f (step s) := by
  simp only [Machine.step, hf.status, State.fetch_congr (hf.seg s) (hf.pc s)]
  cases s.status with
  | halted => rfl
  | faulted k => rfl
  | running =>
    cases s.fetch with
    | error k => exact hf.raise s k
    | ok w => exact hf.exec s hout hin (decode w)

end CoreFrame

/-! ### Another output trace, and other consumed input -/

/-- The first `n` bytes of the output trace replaced by `o`. -/
def rebaseOut (n : Nat) (o : List Byte) (s : State) : State := { s with out := o ++ s.out.drop n }

/-- The first `n` bytes of the input stream replaced by `p`. -/
def rebaseInput (n : Nat) (p : List Byte) (s : State) : State :=
  { s with input := p ++ s.input.drop n }

theorem coreFrame_rebaseOut (n : Nat) (o : List Byte) : CoreFrame (rebaseOut n o) := by
  constructor
  case toTableFrame => constructor <;> intros <;> rfl
  all_goals intros; rfl

theorem coreFrame_rebaseInput (n : Nat) (p : List Byte) : CoreFrame (rebaseInput n p) := by
  constructor
  case toTableFrame => constructor <;> intros <;> rfl
  all_goals intros; rfl

theorem rebaseOut_inputWord (n : Nat) (o : List Byte) (s : State) :
    (rebaseOut n o s).inputWord = (s.inputWord.1, rebaseOut n o s.inputWord.2) := by
  simp only [State.inputWord, rebaseOut]
  split <;> rfl

/-- A byte emitted lands after the trace, whatever the trace's first bytes are. -/
theorem rebaseOut_outputByte {n : Nat} {s : State} (hn : n ≤ s.out.length) (o : List Byte)
    (b : Byte) : (rebaseOut n o s).outputByte b = rebaseOut n o (s.outputByte b) := by
  simp [rebaseOut, State.outputByte, List.drop_append_of_le_length hn]

/-- An input reads at `in_pos`, beyond the bytes consumed (R113). -/
theorem rebaseInput_inputWord {n : Nat} {p : List Byte} {s : State} (hp : p.length = n)
    (hn : n ≤ s.inPos) :
    (rebaseInput n p s).inputWord = (s.inputWord.1, rebaseInput n p s.inputWord.2) := by
  have hread : (p ++ s.input.drop n)[s.inPos]? = s.input[s.inPos]? := by
    rw [List.getElem?_append_right (by omega), List.getElem?_drop, hp, Nat.add_sub_cancel' hn]
  simp only [State.inputWord, rebaseInput, hread]
  split <;> rfl

end Sys2Proof.Machine

namespace Sys2Proof.Proofs

open Sys2Proof.Machine Sys2Proof.Claims

/-- Settles O39: replacing the trace as it stands commutes with the whole step. -/
theorem emittedBytesAreNeverReadBack : Obligations.EmittedBytesAreNeverReadBack := by
  intro s t o h
  have hstart : rebaseOut s.out.length o s = { s with out := o } := by simp [rebaseOut]
  have hstep := (coreFrame_rebaseOut s.out.length o).step s
    (rebaseOut_outputByte le_rfl o)
    (rebaseOut_inputWord s.out.length o s)
  rw [hstart, h] at hstep
  exact hstep

/-- Settles O40: replacing the consumed bytes commutes with the whole step, which reads beyond them. -/
theorem consumedInputIsNeverReadAgain : Obligations.ConsumedInputIsNeverReadAgain := by
  intro s t p hp _ h
  have hinput : t.input = s.input := (streamsMoveOnlyByInputAndOutput s t h).1
  have hstep := (coreFrame_rebaseInput s.inPos p).step s (fun _ => rfl)
    (rebaseInput_inputWord hp le_rfl)
  rw [h] at hstep
  simpa only [mapNext, rebaseInput, hinput] using hstep

end Sys2Proof.Proofs
end

section
/-! PROOFS. A register that an instruction does not read has no influence (10_state.md, the table after
R11). -/

namespace Sys2Proof.Machine

open Sys2Proof.Claims

theorem State.setReg_setReg_self (s : State) (r : Reg) (v w : Word) :
    (s.setReg r v).setReg r w = s.setReg r w := by
  simp [State.setReg]

theorem State.setReg_comm (s : State) {r q : Reg} (h : q ≠ r) (v w : Word) :
    (s.setReg r v).setReg q w = (s.setReg q w).setReg r v := by
  have hne : r.val ≠ q.val := fun e => h (Fin.ext e.symm)
  simp [State.setReg, Vector.set_comm _ _ hne]

/-- The segment manager sees no register. -/
theorem tableFrame_setReg (r : Reg) (v : Word) : TableFrame (·.setReg r v) := by
  constructor <;> intros <;> rfl

theorem State.inputWord_setReg (s : State) (r : Reg) (v : Word) :
    (s.setReg r v).inputWord = (s.inputWord.1, s.inputWord.2.setReg r v) := by
  simp only [State.inputWord, State.setReg_input, State.setReg_inPos]
  split <;> rfl

theorem State.inputWord_pc (s : State) : s.inputWord.2.pc = s.pc := by
  obtain ⟨_, -, h⟩ | ⟨-, h⟩ := s.inputWord_cases <;> rw [h]

theorem State.createSegment_pc {s t : State} {n id : Word} (h : s.createSegment n = .ok (id, t)) :
    t.pc = s.pc := by
  obtain ⟨-, u, hu, rfl⟩ := createSegment_eq_ok.1 h
  obtain ⟨_, -, rfl⟩ | ⟨-, -, -, rfl⟩ := allocateId_eq_ok.1 hu <;> rfl

/-- The end of an instruction sees no register. -/
theorem complete_setReg (s : State) (r : Reg) (v : Word) (res : Except FaultKind State) :
    complete (s.setReg r v) (res.map (·.setReg r v)) = mapNext (·.setReg r v) (complete s res) := by
  cases res <;> rfl

/-- What another Word in register `r` makes of the answer `t`: nothing where the instruction writes `r`,
and otherwise that Word in `r`. -/
def Unread (i : Instr) (s t : State) (r : Reg) (v : Word) : Prop :=
  (Writes i s r ∧ exec i (s.setReg r v) = .next t) ∨
    (¬ Writes i s r ∧ exec i (s.setReg r v) = .next (t.setReg r v))

namespace Unread

variable {i : Instr} {s t u : State} {r d : Reg} {v w : Word}

/-- An instruction without a destination writes no register. -/
theorem of_no_destination (hd : destination i = none) (hs : exec i s = .next t)
    (h : exec i (s.setReg r v) = mapNext (·.setReg r v) (exec i s)) : Unread i s t r v :=
  .inr ⟨fun hw => by simpa [hd] using hw.1, by rw [h, hs]; rfl⟩

/-- An instruction that faults writes no register. -/
theorem of_fault {k : FaultKind} (hs : exec i s = .next (s.withFault k))
    (h : exec i (s.setReg r v) = .next ((s.setReg r v).withFault k)) :
    Unread i s (s.withFault k) r v :=
  .inr ⟨fun hw => hw.2.1 k hs, h⟩

/-- An instruction that advances has not faulted. -/
theorem not_raises_of_advance (hpc : u.pc = s.pc) (hs : exec i s = .next u.advance)
    (k : FaultKind) : ¬ Raises i s k := by
  intro hk
  have hstate : u.advance = s.withFault k := Host.Outcome.next.inj (hs.symm.trans hk)
  have hone : s.pc + 1 = s.pc := by simpa [hpc] using congrArg State.pc hstate
  simp at hone

/-- An instruction that completes with a Word for its destination writes that register alone. -/
theorem of_write (hd : destination i = some d) (hcond : ∀ a b c, i = .cmov a b c → s.reg c ≠ 0)
    (hpc : u.pc = s.pc) (hs : exec i s = .next (u.setReg d w).advance)
    (h : exec i (s.setReg r v) = .next ((u.setReg r v).setReg d w).advance) :
    Unread i s (u.setReg d w).advance r v := by
  by_cases hr : d = r
  · subst hr
    exact .inl ⟨⟨hd, not_raises_of_advance (u := u.setReg d w) hpc hs, hcond⟩,
      by rw [h, State.setReg_setReg_self]⟩
  · exact .inr ⟨fun hw => hr (Option.some.inj (hd.symm.trans hw.1)),
      by rw [h, State.setReg_comm _ hr]; rfl⟩

end Unread

/-- The two cases of `Unread`, for each instruction: its sources read alike in both states, and what it
does to the table and the streams does not depend on a register. -/
theorem exec_unread {i : Instr} {s t : State} {r : Reg} (v : Word) (hr : r ∉ sources i)
    (hs : exec i s = .next t) : Unread i s t r v := by
  have hread : ∀ q ∈ sources i, (s.setReg r v).reg q = s.reg q :=
    fun q hq => s.reg_setReg_ne (ne_of_mem_of_not_mem hq hr) v
  have hf := tableFrame_setReg r v
  have he := exec_eq_next.1 hs
  cases i with
  | cmov a b c =>
    obtain ⟨hb, hc⟩ : _ ∧ _ := by simpa [sources] using hread
    obtain ⟨hne, rfl⟩ | ⟨hz, rfl⟩ := he
    · refine .of_write rfl (fun _ _ _ e => by cases e; exact hne) rfl hs (exec_eq_next.2 (.inl ?_))
      rw [hb, hc]
      exact ⟨hne, rfl⟩
    · exact .inr ⟨fun hw => hw.2.2 a b c rfl hz, exec_eq_next.2 (.inr ⟨hc.trans hz, rfl⟩)⟩
  | sload a b c =>
    obtain ⟨hb, hc⟩ : _ ∧ _ := by simpa [sources] using hread
    have hop := hf.memRead s (s.reg b) (s.reg c)
    obtain ⟨w, hw, rfl⟩ | ⟨k, hk, rfl⟩ := he
    · refine .of_write rfl nofun rfl hs (exec_eq_next.2 (.inl ⟨w, ?_, rfl⟩))
      rw [hb, hc, hop, hw]
    · refine .of_fault hs (exec_eq_next.2 (.inr ⟨k, ?_, rfl⟩))
      rw [hb, hc, hop, hk]
  | sstore a b c =>
    obtain ⟨ha, hb, hc⟩ : _ ∧ _ ∧ _ := by simpa [sources] using hread
    refine .of_no_destination rfl hs ?_
    simp only [exec, execSstore, State.address, ha, hb, hc, hf.memWrite, complete_setReg]
  | add a b c =>
    obtain ⟨hb, hc⟩ : _ ∧ _ := by simpa [sources] using hread
    obtain rfl := he
    exact .of_write rfl nofun rfl hs (by simp only [exec, execAdd, hb, hc])
  | mul a b c =>
    obtain ⟨hb, hc⟩ : _ ∧ _ := by simpa [sources] using hread
    obtain rfl := he
    exact .of_write rfl nofun rfl hs (by simp only [exec, execMul, hb, hc])
  | div a b c =>
    obtain ⟨hb, hc⟩ : _ ∧ _ := by simpa [sources] using hread
    obtain ⟨hne, rfl⟩ | ⟨hz, rfl⟩ := he
    · refine .of_write rfl nofun rfl hs (exec_eq_next.2 (.inl ?_))
      rw [hb, hc]
      exact ⟨hne, rfl⟩
    · exact .of_fault hs (exec_eq_next.2 (.inr ⟨hc.trans hz, rfl⟩))
  | nand a b c =>
    obtain ⟨hb, hc⟩ : _ ∧ _ := by simpa [sources] using hread
    obtain rfl := he
    exact .of_write rfl nofun rfl hs (by simp only [exec, execNand, hb, hc])
  | halt a b c => exact .of_no_destination rfl hs rfl
  | map a b c =>
    have hc : (s.setReg r v).reg c = s.reg c := by simpa [sources] using hread
    have hop := hf.createSegment s (s.reg c)
    obtain ⟨id, u, hu, rfl⟩ | ⟨k, hk, rfl⟩ := he
    · refine .of_write rfl nofun (State.createSegment_pc hu) hs
        (exec_eq_next.2 (.inl ⟨id, u.setReg r v, ?_, rfl⟩))
      rw [hc, hop, hu]
      rfl
    · refine .of_fault hs (exec_eq_next.2 (.inr ⟨k, ?_, rfl⟩))
      rw [hc, hop, hk]
      rfl
  | unmap a b c =>
    have hc : (s.setReg r v).reg c = s.reg c := by simpa [sources] using hread
    refine .of_no_destination rfl hs ?_
    simp only [exec, execUnmap, hc, hf.deleteSegment, complete_setReg]
  | output a b c =>
    have hc : (s.setReg r v).reg c = s.reg c := by simpa [sources] using hread
    refine .of_no_destination rfl hs ?_
    simp only [exec, execOutput, hc, ← complete_setReg]
    split <;> rfl
  | input a b c =>
    obtain rfl := he
    exact .of_write rfl nofun s.inputWord_pc hs
      (by simp only [exec, execInput, State.inputWord_setReg])
  | loadp a b c =>
    obtain ⟨hb, hc⟩ : _ ∧ _ := by simpa [sources] using hread
    refine .of_no_destination rfl hs ?_
    simp only [exec, execLoadp, hb, hc, hf.copyToZero]
    cases s.copyToZero (s.reg b) <;> rfl
  | loadi a imm =>
    obtain rfl := he
    exact .of_write rfl nofun rfl hs rfl
  | illegal14 => exact .of_no_destination rfl hs rfl
  | illegal15 => exact .of_no_destination rfl hs rfl

end Sys2Proof.Machine

namespace Sys2Proof.Proofs

open Sys2Proof.Machine Sys2Proof.Claims

/-- Settles O28: in both cases of `Unread` the answer is `t`, up to the Word in register `r`. -/
theorem unreadRegistersDoNotMatter : Obligations.UnreadRegistersDoNotMatter := by
  intro i s t r v hr h
  obtain ⟨hw, he⟩ | ⟨hw, he⟩ := exec_unread v hr h
  · exact ⟨t, he, fun _ _ => rfl, fun _ => rfl, fun hn => absurd hw hn, rfl, rfl, rfl, rfl,
      ⟨rfl, rfl⟩, rfl, rfl, rfl⟩
  · exact ⟨t.setReg r v, he, fun _ hq => t.reg_setReg_ne hq v, fun hy => absurd hy hw,
      fun _ => t.reg_setReg_self r v, rfl, rfl, rfl, rfl, ⟨rfl, rfl⟩, rfl, rfl, rfl⟩

end Sys2Proof.Proofs
end

section
/-! SUPPORT. Reads and writes of memory as the next instruction sees them: when an access succeeds, what a
read answers after a store, after Load Program's copy and in a new segment, and how a fetch is such a read
(20_memory.md R35 to R38, R42, R44). -/

namespace Sys2Proof.Machine

theorem exists_map_eq_ok {α β : Type} {r : Except FaultKind α} {f : α → β} :
    (∃ b, r.map f = .ok b) ↔ ∃ a, r = .ok a := by
  cases r <;> simp [Except.map]

/-- A Running core executes the Word it fetches (R70). -/
theorem step_of_fetch {s : State} {w : Word} (hs : s.status = .running) (hw : s.fetch = .ok w) :
    step s = exec (decode w) s := by
  simp only [step, hs, hw]

namespace State

variable {s t : State} {id off : Word}

/-! ### When an access succeeds -/

/-- Both checks of R35, as a fact about the id's length. -/
theorem exists_translate_eq_ok :
    (∃ g, s.translate id off = .ok g) ↔ ∃ n, s.lenOf id = some n ∧ off.toNat < n.toNat := by
  simp only [translate_eq_ok, lenOf, Option.map_eq_some_iff]
  constructor
  · rintro ⟨g, hg, hoff⟩
    exact ⟨g.len, ⟨g, hg, rfl⟩, hoff⟩
  · rintro ⟨_, ⟨g, hg, rfl⟩, hoff⟩
    exact ⟨g, hg, hoff⟩

theorem exists_memRead_eq_ok :
    (∃ w, s.memRead id off = .ok w) ↔ ∃ n, s.lenOf id = some n ∧ off.toNat < n.toNat :=
  exists_map_eq_ok.trans exists_translate_eq_ok

theorem exists_memWrite_eq_ok (v : Word) :
    (∃ t, s.memWrite id off v = .ok t) ↔ ∃ n, s.lenOf id = some n ∧ off.toNat < n.toNat :=
  exists_map_eq_ok.trans exists_translate_eq_ok

theorem translate_of_lenOf_none (h : s.lenOf id = none) (off : Word) :
    s.translate id off = .error .invalidSegmentAccess := by
  have hg : s.getSegment id = .error .invalidSegmentAccess :=
    getSegment_eq_error.2 ⟨Option.map_eq_none_iff.1 h, rfl⟩
  simp only [translate, hg]

theorem memRead_of_lenOf_none (h : s.lenOf id = none) (off : Word) :
    s.memRead id off = .error .invalidSegmentAccess :=
  map_eq_error.2 (translate_of_lenOf_none h off)

theorem memWrite_of_lenOf_none (h : s.lenOf id = none) (off v : Word) :
    s.memWrite id off v = .error .invalidSegmentAccess :=
  map_eq_error.2 (translate_of_lenOf_none h off)

/-! ### What a read answers after a change of the table -/

/-- A read of the id that was bound last reads the segment bound to it. -/
theorem memRead_of_register {g : Segment} (h : t.seg = s.seg.register id g)
    (hoff : off.toNat < g.len.toNat) : t.memRead id off = .ok (g.read off) :=
  memRead_eq_ok.2 ⟨g, by rw [h, Memory.segment_register, if_pos rfl], hoff, rfl⟩

/-- A stored Word is read back (R37). -/
theorem memRead_of_memWrite {v : Word} (h : s.memWrite id off v = .ok t) :
    t.memRead id off = .ok v := by
  obtain ⟨g, -, hoff, rfl⟩ := memWrite_eq_ok.1 h
  rw [memRead_of_register rfl (by simpa using hoff), Segment.read_write, if_pos rfl]

/-- After Load Program's copy segment 0 reads as the segment that was copied (R121). -/
theorem memRead_of_copyToZero {w : Word} (h0 : id ≠ 0) (h : s.copyToZero id = .ok t)
    (hw : s.memRead id off = .ok w) : t.memRead 0 off = .ok w := by
  obtain ⟨g, hg, hoff, rfl⟩ := memRead_eq_ok.1 hw
  obtain ⟨hz, -⟩ | ⟨-, g', hg', -, rfl⟩ := copyToZero_eq_ok.1 h
  · exact absurd hz h0
  · obtain rfl : g = g' := Option.some.inj (hg.symm.trans hg')
    exact memRead_of_register rfl hoff

/-- A fetch that succeeds is a read of segment 0 at `pc` (R38). -/
theorem fetch_eq_ok_iff_memRead {w : Word} : s.fetch = .ok w ↔ s.memRead 0 s.pc = .ok w :=
  fetch_eq_ok.trans memRead_eq_ok.symm

/-! ### Unmapping and mapping again -/

/-- `Delete` leaves its id unmapped (R97). -/
theorem lenOf_of_deleteSegment (h : s.deleteSegment id = .ok t) : t.lenOf id = none := by
  obtain ⟨-, -, rfl⟩ := deleteSegment_eq_ok.1 h
  rw [lenOf_of_release rfl, if_pos rfl]

/-- `Delete` puts its id on top of the free stack (R97). -/
theorem free_of_deleteSegment (h : s.deleteSegment id = .ok t) : t.free = id :: s.free := by
  obtain ⟨-, -, rfl⟩ := deleteSegment_eq_ok.1 h
  rfl

/-- `Create` returns the top of the free stack, or else the counter (R95). -/
theorem createSegment_id {n : Word} (h : s.createSegment n = .ok (id, t)) :
    id = s.free.headD s.nextId := by
  obtain ⟨-, u, hu, -⟩ := createSegment_eq_ok.1 h
  obtain ⟨rest, hfree, -⟩ | ⟨hfree, -, hid, -⟩ := allocateId_eq_ok.1 hu
  · rw [hfree]; rfl
  · rw [hfree, hid]; rfl

/-- The id that `Create` returns is bound to a segment of the length asked for (R96). -/
theorem lenOf_of_createSegment {n : Word} (h : s.createSegment n = .ok (id, t)) :
    t.lenOf id = some n := by
  obtain ⟨-, u, -, rfl⟩ := createSegment_eq_ok.1 h
  rw [lenOf_of_register rfl, if_pos rfl, Segment.zeros_len]

/-- Each Word of a new segment is 0 (R96). -/
theorem memRead_of_createSegment {n : Word} (h : s.createSegment n = .ok (id, t))
    (hoff : off.toNat < n.toNat) : t.memRead id off = .ok 0 := by
  obtain ⟨-, u, -, rfl⟩ := createSegment_eq_ok.1 h
  exact memRead_of_register (g := Segment.zeros n) rfl hoff

end State

end Sys2Proof.Machine
end

section
/-! SUPPORT. The loader's result: a program file of whole Words, and one that is not (20_memory.md R32,
70_reset_and_hazards.md R181). -/

namespace Sys2Proof.Machine

/-- Four bytes fit a Word: nothing is lost to the 32 bits. -/
theorem bigEndianWord_toNat (b0 b1 b2 b3 : Byte) :
    (bigEndianWord b0 b1 b2 b3).toNat
      = b0.toNat * 2 ^ 24 + b1.toNat * 2 ^ 16 + b2.toNat * 2 ^ 8 + b3.toNat := by
  have := b0.isLt; have := b1.isLt; have := b2.isLt; have := b3.isLt
  simp only [bigEndianWord, BitVec.toNat_ofNat]
  omega

/-- A file that starts with four bytes: their Word, before the Words of the rest. -/
theorem assemble_four (b0 b1 b2 b3 : Byte) (rest : List Byte) :
    assemble (b0 :: b1 :: b2 :: b3 :: rest)
      = (assemble rest).map fun ws => bigEndianWord b0 b1 b2 b3 :: ws := rfl

/-- A file with bytes left over is a load error (R158). -/
theorem assemble_eq_error : ∀ {bytes : List Byte}, bytes.length % 4 ≠ 0 →
    assemble bytes = .error .programLoadError
  | [], h => absurd rfl h
  | [_], _ | [_, _], _ | [_, _, _], _ => rfl
  | b0 :: b1 :: b2 :: b3 :: rest, h => by
    rw [assemble_four, map_eq_error]
    exact assemble_eq_error (by simp only [List.length_cons] at h; omega)

/-- A file of whole Words makes an image of a quarter as many Words. -/
theorem assemble_eq_ok : ∀ {bytes : List Byte}, bytes.length % 4 = 0 →
    ∃ ws, assemble bytes = .ok ws ∧ ws.length = bytes.length / 4
  | [], _ => ⟨[], rfl, rfl⟩
  | [_], h | [_, _], h | [_, _, _], h => by simp at h
  | b0 :: b1 :: b2 :: b3 :: rest, h => by
    simp only [List.length_cons] at h ⊢
    obtain ⟨ws, hws, hlen⟩ := assemble_eq_ok (bytes := rest) (by omega)
    exact ⟨_, map_eq_ok.2 ⟨ws, hws, rfl⟩, by simp only [List.length_cons]; omega⟩

/-- Word `i` of the image is made of the bytes `4i` to `4i + 3` of the file. -/
theorem assemble_getElem? {bytes : List Byte} {ws : List Word} (h : assemble bytes = .ok ws)
    {i : Nat} {b0 b1 b2 b3 : Byte} (h0 : bytes[4 * i]? = some b0) (h1 : bytes[4 * i + 1]? = some b1)
    (h2 : bytes[4 * i + 2]? = some b2) (h3 : bytes[4 * i + 3]? = some b3) :
    ws[i]? = some (bigEndianWord b0 b1 b2 b3) := by
  induction i generalizing bytes ws with
  | zero =>
    obtain ⟨rest, rfl⟩ : ∃ rest, bytes = b0 :: b1 :: b2 :: b3 :: rest := by
      match bytes, h0, h1, h2, h3 with
      | _ :: _ :: _ :: _ :: rest, h0, h1, h2, h3 =>
        cases h0; cases h1; cases h2; cases h3
        exact ⟨rest, rfl⟩
    obtain ⟨_, -, rfl⟩ := map_eq_ok.1 h
    rfl
  | succ i ih =>
    match bytes, h, h0, h1, h2, h3 with
    | _ :: _ :: _ :: _ :: _, h, h0, h1, h2, h3 =>
      obtain ⟨_, hrest, rfl⟩ := map_eq_ok.1 h
      exact ih hrest h0 h1 h2 h3

end Sys2Proof.Machine
end

section
/-! PROOFS. The memory as programs and the loader see it (20_memory.md). -/

namespace Sys2Proof.Proofs

open Sys2Proof.Machine

/-- An instruction after which the core still runs had its effect, and took no fault (R161). -/
theorem effect_of_running {s t : State} {P : Prop} {Q : FaultKind → Prop}
    (h : P ∨ ∃ k, Q k ∧ t = s.withFault k) (ht : t.status = .running) : P := by
  obtain hp | ⟨k, -, rfl⟩ := h
  · exact hp
  · cases ht

/-- Settles O29: a fetch is a read of segment 0, and a read answers what SSTORE stored and what LOADP
copied. -/
theorem theNextFetchSeesTheStoredProgram : Obligations.TheNextFetchSeesTheStoredProgram := by
  refine ⟨fun a b c s t _ ha h ht => ?_, fun a b c s t w _ hb h ht hw => ?_⟩
  · obtain ⟨u, hu, rfl⟩ := effect_of_running (exec_eq_next.1 h) ht
    rw [ha] at hu
    have hpc : u.pc = s.pc := by obtain ⟨g, -, -, rfl⟩ := State.memWrite_eq_ok.1 hu; rfl
    have hread : u.memRead 0 (s.reg b) = .ok (s.reg c) := State.memRead_of_memWrite hu
    refine ⟨State.fetch_eq_ok_iff_memRead.2 hread, fun hb => step_of_fetch ht ?_⟩
    rw [State.fetch_eq_ok_iff_memRead, State.advance_pc, hpc, ← hb]
    exact hread
  · obtain ⟨u, hu, rfl⟩ := effect_of_running (exec_eq_next.1 h) ht
    have hread : u.memRead 0 (s.reg c) = .ok w := State.memRead_of_copyToZero hb hu hw
    exact step_of_fetch ht (State.fetch_eq_ok_iff_memRead.2 hread)

/-- Settles O30: reads and writes succeed as their translation does, and fail with its fault. -/
theorem accessSucceedsExactlyWithinAMappedSegment :
    Obligations.AccessSucceedsExactlyWithinAMappedSegment :=
  fun _ _ _ v => ⟨State.exists_memRead_eq_ok, State.exists_memWrite_eq_ok v,
    fun _ => State.memRead_eq_error, fun _ => State.memWrite_eq_error⟩

/-- Settles O35: the deleted id is unmapped, and it is on top of the free stack, from which the next
`Create` takes it. -/
theorem unmappedIdFaultsUntilMappedAgain : Obligations.UnmappedIdFaultsUntilMappedAgain := by
  intro a b c s t _ h ht
  obtain ⟨u, hu, rfl⟩ := effect_of_running (exec_eq_next.1 h) ht
  have hnone : u.advance.lenOf (s.reg c) = none :=
    (State.lenOf_congr u.advance_seg _).trans (State.lenOf_of_deleteSegment hu)
  refine ⟨fun off v => ?_, fun n id v hv => ?_⟩
  · exact ⟨State.memRead_of_lenOf_none hnone off, State.memWrite_of_lenOf_none hnone off v⟩
  · have hid : id = s.reg c := by
      rw [State.createSegment_id hv, State.advance_free, State.free_of_deleteSegment hu,
        List.headD_cons]
    exact ⟨hid, State.lenOf_of_createSegment hv, fun _ => State.memRead_of_createSegment hv⟩

/-- Settles O47: the file is taken apart four bytes at a time, and the Word of each four bytes has their
positional value. -/
theorem loaderAssemblesBigEndianWords : Obligations.LoaderAssemblesBigEndianWords := by
  refine fun bytes => ⟨fun hlen => ?_, assemble_eq_error⟩
  obtain ⟨ws, hws, hcount⟩ := assemble_eq_ok hlen
  exact ⟨ws, hws, hcount, fun i b0 b1 b2 b3 h0 h1 h2 h3 =>
    ⟨_, assemble_getElem? hws h0 h1 h2 h3, bigEndianWord_toNat b0 b1 b2 b3⟩⟩

end Sys2Proof.Proofs
end

section
/-! SUPPORT. The two formats as the decoder and the encoder see them (30_encoding.md R51 to R60): what a word
of each format decodes to, that the canonical word is of its format, and when a word is the canonical one.
`instrS` names the operation of format S by its opcode, so that the thirteen operations share these facts. -/

namespace Sys2Proof.Laws

open Sys2Proof.Machine Sys2Proof.Claims

/-- The operation of format S with opcode `op` (R63), for `op` at most 12. -/
def instrS (op : Nat) (a b c : Reg) : Instr :=
  match op with
  | 0 => .cmov a b c
  | 1 => .sload a b c
  | 2 => .sstore a b c
  | 3 => .add a b c
  | 4 => .mul a b c
  | 5 => .div a b c
  | 6 => .nand a b c
  | 7 => .halt a b c
  | 8 => .map a b c
  | 9 => .unmap a b c
  | 10 => .output a b c
  | 11 => .input a b c
  | _ => .loadp a b c

variable {op : Nat} {w v : Word} {a b c : Reg} {imm : Imm} {i : Instr}

/-! ### The operations of format S by their opcodes -/

theorem opcode_instrS (hop : op ≤ 12) (a b c : Reg) : (instrS op a b c).opcode = op := by
  interval_cases op <;> rfl

theorem encode_instrS (hop : op ≤ 12) (a b c : Reg) :
    encode (instrS op a b c) = encodeS op a b c := by
  interval_cases op <;> rfl

/-- The well-formed instructions are the operations of format S and LOADI (R1, R52, R53). -/
theorem wellFormed_cases (h : i.wellFormed = true) :
    (∃ op a b c, op ≤ 12 ∧ i = instrS op a b c) ∨ ∃ a imm, i = .loadi a imm := by
  have hop : i.opcode ≤ 13 := of_decide_eq_true h
  cases i with
  | loadi a imm => exact .inr ⟨a, imm, rfl⟩
  | illegal14 | illegal15 => exact absurd hop (by decide)
  | _ a b c => exact .inl ⟨_, a, b, c, Nat.le_of_lt_succ (lt_of_le_of_ne hop nofun), rfl⟩

/-! ### The fields of a word -/

theorem fieldOpcode_eq (w : Word) : fieldOpcode w = w.toNat / 2 ^ 28 := by
  have := w.isLt
  rw [fieldOpcode, bits]
  omega

/-- The opcode field selects among format S, format I and the two illegal opcodes (R51, R57). -/
theorem opcode_cases (w : Word) :
    w.toNat / 2 ^ 28 ≤ 12 ∨ w.toNat / 2 ^ 28 = 13 ∨ w.toNat / 2 ^ 28 = 14 ∨
      w.toNat / 2 ^ 28 = 15 := by
  have := w.isLt
  omega

/-- Every word is of format S with the fields that the decoder reads. -/
theorem formatS_fields (w : Word) :
    FormatS (w.toNat / 2 ^ 28) w (fieldA w) (fieldB w) (fieldC w) :=
  ⟨rfl, rfl, rfl, by simp [fieldC, bits]⟩

/-- Every word with opcode 13 is of format I with the fields that the decoder reads. -/
theorem formatI_fields (hop : w.toNat / 2 ^ 28 = 13) : FormatI w (fieldAImm w) (fieldImm w) :=
  ⟨hop, rfl, by simp [fieldImm, bits]⟩

/-- Format S reads nothing of a word but its bits [31:28] and [8:0] (R52, R55). -/
theorem formatS_congr (hop : w.toNat / 2 ^ 28 = v.toNat / 2 ^ 28)
    (hlow : w.toNat % 2 ^ 9 = v.toNat % 2 ^ 9) (h : FormatS op w a b c) : FormatS op v a b c := by
  obtain ⟨h0, ha, hb, hc⟩ := h
  refine ⟨?_, ?_, ?_, ?_⟩ <;> omega

/-! ### What a word of each format decodes to -/

theorem decode_of_formatS (hop : op ≤ 12) (h : FormatS op w a b c) :
    decode w = instrS op a b c := by
  obtain ⟨h0, ha, hb, hc⟩ := h
  have hA : fieldA w = a := Fin.ext ha
  have hB : fieldB w = b := Fin.ext hb
  have hC : fieldC w = c := Fin.ext (by simpa [fieldC, bits] using hc)
  rw [decode, fieldOpcode_eq, h0, hA, hB, hC]
  interval_cases op <;> rfl

theorem decode_of_formatI (h : FormatI w a imm) : decode w = .loadi a imm := by
  obtain ⟨h0, ha, himm⟩ := h
  have hA : fieldAImm w = a := Fin.ext ha
  have hImm : fieldImm w = imm := BitVec.eq_of_toNat_eq (by simpa [fieldImm, bits] using himm)
  rw [decode, fieldOpcode_eq, h0, hA, hImm]
  rfl

theorem decode_of_opcode14 (h : w.toNat / 2 ^ 28 = 14) : decode w = .illegal14 := by
  rw [decode, fieldOpcode_eq, h]
  rfl

theorem decode_of_opcode15 (h : w.toNat / 2 ^ 28 = 15) : decode w = .illegal15 := by
  rw [decode, fieldOpcode_eq, h]
  rfl

theorem opcode_decode (w : Word) : (decode w).opcode = w.toNat / 2 ^ 28 := by
  obtain hop | hop | hop | hop := opcode_cases w
  · rw [decode_of_formatS hop (formatS_fields w), opcode_instrS hop]
  · rw [decode_of_formatI (formatI_fields hop), hop, Instr.opcode]
  · rw [decode_of_opcode14 hop, hop, Instr.opcode]
  · rw [decode_of_opcode15 hop, hop, Instr.opcode]

theorem wellFormed_decode_iff (w : Word) :
    (decode w).wellFormed = true ↔ w.toNat / 2 ^ 28 ≤ 13 := by
  rw [Instr.wellFormed, opcode_decode, decide_eq_true_eq]

/-! ### The canonical word of each format (R59, R60) -/

theorem formatS_encodeS (hop : op ≤ 15) (a b c : Reg) : FormatS op (encodeS op a b c) a b c := by
  have := a.isLt; have := b.isLt; have := c.isLt
  rw [FormatS, encodeS_toNat hop]
  omega

theorem formatI_encodeI (a : Reg) (imm : Imm) : FormatI (encodeI a imm) a imm := by
  have := a.isLt; have := imm.isLt
  rw [FormatI, encodeI_toNat]
  omega

/-- The canonical word is the one whose unused bits [27:9] are 0. -/
theorem encodeS_eq_iff (h : FormatS op w a b c) :
    encodeS op a b c = w ↔ w.toNat / 2 ^ 9 % 2 ^ 19 = 0 := by
  obtain ⟨h0, ha, hb, hc⟩ := h
  have := w.isLt
  rw [← BitVec.toNat_inj, encodeS_toNat (by omega)]
  omega

/-- Format I has no unused bit: a word of it is its canonical word. -/
theorem encodeI_eq (h : FormatI w a imm) : encodeI a imm = w := by
  obtain ⟨h0, ha, himm⟩ := h
  refine BitVec.eq_of_toNat_eq ?_
  rw [encodeI_toNat]
  omega

theorem decode_encode (h : i.wellFormed = true) : decode (encode i) = i := by
  obtain ⟨op, a, b, c, hop, rfl⟩ | ⟨a, imm, rfl⟩ := wellFormed_cases h
  · rw [encode_instrS hop, decode_of_formatS hop (formatS_encodeS (by omega) a b c)]
  · exact decode_of_formatI (formatI_encodeI a imm)

theorem encode_decode_iff_of_formatS (hop : w.toNat / 2 ^ 28 ≤ 12) :
    encode (decode w) = w ↔ w.toNat / 2 ^ 9 % 2 ^ 19 = 0 := by
  rw [decode_of_formatS hop (formatS_fields w), encode_instrS hop]
  exact encodeS_eq_iff (formatS_fields w)

theorem encode_decode_of_formatI (hop : w.toNat / 2 ^ 28 = 13) : encode (decode w) = w := by
  rw [decode_of_formatI (formatI_fields hop)]
  exact encodeI_eq (formatI_fields hop)

/-! ### The InvalidOpcode fault -/

/-- No operation can raise InvalidOpcode: the table after R171 lists it for the illegal opcodes alone. -/
theorem invalidOpcode_not_tabled (h : i.wellFormed = true) : .invalidOpcode ∉ tabledFaults i := by
  cases i with
  | illegal14 | illegal15 => exact absurd h (by decide)
  | _ => simp [tabledFaults]

end Sys2Proof.Laws
end

section
/-! PROOFS. The decoder and the canonical encoder (30_encoding.md). -/

namespace Sys2Proof.Proofs

open Sys2Proof.Machine Sys2Proof.Laws

/-- Settles O1: format by format, the words of opcode 14 and 15 being no operation's. For the last clause,
two words of CMOV that differ in bit 9. -/
theorem decodeAndEncodeAgree : Obligations.DecodeAndEncodeAgree := by
  refine ⟨fun i => decode_encode, fun w => ?_, 0x00000200, 0, by decide⟩
  rw [wellFormed_decode_iff]
  refine and_congr_right fun hle => ?_
  obtain hop | hop := Nat.le_succ_iff.1 hle
  · rw [encode_decode_iff_of_formatS hop, or_iff_right (by omega)]
  · exact iff_of_true (encode_decode_of_formatI hop) (.inl hop)

/-- Settles O2: each listed pair is an opcode of format S and its operation. -/
theorem encoderWritesTheSpecsFormula : Obligations.EncoderWritesTheSpecsFormula := by
  refine ⟨fun a b c op i h => ?_, encodeI_toNat⟩
  have hrow : op ≤ 12 ∧ i = instrS op a b c := by
    simp only [List.mem_cons, List.not_mem_nil, or_false, Prod.mk.injEq] at h
    rcases h with h | h | h | h | h | h | h | h | h | h | h | h | h <;>
      (obtain ⟨rfl, rfl⟩ := h; exact ⟨by decide, rfl⟩)
  obtain ⟨hop, rfl⟩ := hrow
  rw [encode_instrS hop, encodeS_toNat (by omega)]

/-- Settles O3: the decoder reads the fields of format S alone, and no meaning takes an ignored field into
its answer. -/
theorem unusedBitsAndFieldsAreIgnored : Obligations.UnusedBitsAndFieldsAreIgnored := by
  refine ⟨fun w v hop hne hlow => ?_, fun a b c a' b' c' s => ⟨rfl, rfl, rfl, rfl, rfl, rfl⟩⟩
  obtain h | h | h | h := opcode_cases w
  · have hw := formatS_fields w
    rw [decode_of_formatS h hw, decode_of_formatS h (formatS_congr hop hlow hw)]
  · exact absurd h hne
  · rw [decode_of_opcode14 h, decode_of_opcode14 (hop ▸ h)]
  · rw [decode_of_opcode15 h, decode_of_opcode15 (hop ▸ h)]

/-- Settles O4: by the opcode of the decoded instruction, and `Change.status_cases` for the operations. -/
theorem illegalOpcodesAloneRaiseInvalidOpcode : Obligations.IllegalOpcodesAloneRaiseInvalidOpcode := by
  refine ⟨fun w => ?_, fun _ => decode_of_opcode14, fun _ => decode_of_opcode15,
    fun _ => exec_eq_next.2 rfl, fun _ => exec_eq_next.2 rfl, fun i s t hi hs h => ?_⟩
  · rw [← Bool.not_eq_true, wellFormed_decode_iff]
    omega
  · obtain hkeep | ⟨a, b, c, -, rfl⟩ | ⟨k, hk, rfl⟩ := (exec_change h).status_cases
    · rw [hkeep, hs]
      exact nofun
    · exact nofun
    · rintro ⟨⟩
      exact invalidOpcode_not_tabled hi hk

end Sys2Proof.Proofs
end

section
/-! PROOFS. The execution cycle: what a step runs, when there is one, and where it leaves `pc`
(40_execution_cycle.md R70 to R75). -/

namespace Sys2Proof.Machine

/-- The end of an instruction that may fault is a next state either way (R161, R73). -/
theorem exists_complete_eq_next (s : State) (r : Except FaultKind State) :
    ∃ t, complete s r = .next t := by
  cases r with
  | error k => exact ⟨s.withFault k, rfl⟩
  | ok u => exact ⟨u.advance, rfl⟩

/-- Every instruction answers a next state in every state: it ends in one state, or in `complete`, or, as
LOADP does, in a fault entry or a jump. -/
theorem exists_exec_eq_next (i : Instr) (s : State) : ∃ t, exec i s = .next t := by
  cases i with
  | loadp a b c =>
    cases hcopy : s.copyToZero (s.reg b) with
    | error k => exact ⟨_, exec_eq_next.2 (.inr ⟨k, hcopy, rfl⟩)⟩
    | ok u => exact ⟨_, exec_eq_next.2 (.inl ⟨u, hcopy, rfl⟩)⟩
  | sload _ _ _ | sstore _ _ _ | div _ _ _ | map _ _ _ | unmap _ _ _ | output _ _ _ =>
    exact exists_complete_eq_next s _
  | cmov _ _ _ | add _ _ _ | mul _ _ _ | nand _ _ _ | loadi _ _ | input _ _ _ | halt _ _ _
  | illegal14 | illegal15 => exact ⟨_, rfl⟩

/-- The index of a Word that a read reaches has a successor: it is below a length, which is a Word (R15). -/
theorem State.toNat_succ_of_memRead {s : State} {id off w : Word} (h : s.memRead id off = .ok w) :
    (off + 1).toNat = off.toNat + 1 := by
  obtain ⟨g, -, hoff, -⟩ := memRead_eq_ok.1 h
  bv_omega

/-- While the status stays, `pc` moves by one Word unless the instruction is LOADP; HALT and a fault leave it
(R73, R74, D7). -/
theorem Change.pc_cases {i : Instr} {s t : State} (hc : Change i s t) :
    (t.status = s.status ∧ (t.pc = s.pc + 1 ∨ ∃ a b c, i = .loadp a b c)) ∨
      (t.status ≠ .running ∧ t.pc = s.pc) := by
  cases hc with
  | halted _ ht | faulted _ ht => subst ht; exact .inr ⟨nofun, rfl⟩
  | jumped hi ht | copied hi _ ht => subst ht; exact .inl ⟨rfl, .inr ⟨_, _, _, hi⟩⟩
  | _ => rename_i ht; subst ht; exact .inl ⟨rfl, .inl rfl⟩

end Sys2Proof.Machine

namespace Sys2Proof.Proofs

open Sys2Proof.Machine

/-- Settles O20: below the end of segment 0 the fetch is a read that succeeds. -/
theorem stepRunsTheDecodedInstruction : Obligations.StepRunsTheDecodedInstruction := by
  intro s n hs hn hpc
  obtain ⟨w, hw⟩ := State.exists_memRead_eq_ok.2 ⟨n, hn, hpc⟩
  exact ⟨w, hw, step_of_fetch hs (State.fetch_eq_ok_iff_memRead.2 hw)⟩

/-- Settles O22: a fetch that fails is a fault entry, and every instruction answers a next state. -/
theorem stepIsTakenExactlyWhileRunning : Obligations.StepIsTakenExactlyWhileRunning := by
  refine fun s => ⟨fun ⟨_, h⟩ => (step_cases h).1, fun hs => ?_⟩
  cases hf : s.fetch with
  | error k =>
    obtain rfl := State.fetch_eq_error hf
    exact ⟨_, step_eq_next.2 ⟨hs, .inl ⟨hf, rfl⟩⟩⟩
  | ok w =>
    rw [step_of_fetch hs hf]
    exact exists_exec_eq_next (decode w) s

/-- Settles O26: LOADP that completes sets `pc` itself; every other instruction is one of
`Change.pc_cases`, and the index it was fetched from has a successor. -/
theorem programCounterMovesByOneOrByLoadProgram :
    Obligations.ProgramCounterMovesByOneOrByLoadProgram := by
  intro s t h
  obtain ⟨hrun, ⟨rfl, -⟩ | ⟨w, hw, he⟩⟩ := step_cases h
  · exact ⟨nofun, fun _ => rfl⟩
  have hcases := (exec_change he).pc_cases
  refine ⟨fun ht => ⟨w, hw, ?_⟩, fun ht => ?_⟩
  · by_cases hi : ∃ a b c, decode w = .loadp a b c
    · obtain ⟨a, b, c, hi⟩ := hi
      rw [hi] at he
      obtain ⟨u, -, rfl⟩ := effect_of_running (exec_eq_next.1 he) ht
      exact .inl ⟨a, b, c, hi, rfl⟩
    · obtain ⟨-, hpc | hjump⟩ | ⟨hstop, -⟩ := hcases
      · exact .inr ⟨fun a b c e => hi ⟨a, b, c, e⟩, hpc ▸ State.toNat_succ_of_memRead hw⟩
      · exact absurd hjump hi
      · exact absurd ht hstop
  · obtain ⟨hkeep, -⟩ | ⟨-, hpc⟩ := hcases
    · exact absurd (hkeep.trans hrun) ht
    · exact hpc

end Sys2Proof.Proofs
end

section
/-! SUPPORT. What the six register moves and ALU operations share: the frame of an instruction that writes one
register and goes on, and the values of the ALU as numbers and bits (41_alu_and_moves.md R80 to R87). -/

namespace Sys2Proof.Machine

open Sys2Proof.Claims

/-! ### The frame of an instruction that writes one register and goes on -/

/-- All reads of memory go through the table (10_state.md R24). -/
theorem sameMemory_of_seg_eq {s t : State} (h : t.seg = s.seg) : SameMemory s t :=
  fun id => ⟨State.lenOf_congr h id, State.memRead_congr h id⟩

/-- Going on to the next Word is within the frame of every register (R73). -/
theorem onlyRegister_advance (a : Reg) (s : State) : OnlyRegister a s s.advance :=
  ⟨fun r _ => s.reg_advance r, sameMemory_of_seg_eq rfl, ⟨rfl, rfl⟩, ⟨rfl, rfl, rfl⟩, rfl, rfl, rfl⟩

/-- Writing a register and going on is within the frame of that register (R11, R73). -/
theorem onlyRegister_setReg_advance (a : Reg) (v : Word) (s : State) :
    OnlyRegister a s (s.setReg a v).advance :=
  ⟨fun _ hr => s.reg_setReg_ne hr v, sameMemory_of_seg_eq rfl, ⟨rfl, rfl⟩, ⟨rfl, rfl, rfl⟩,
    rfl, rfl, rfl⟩

/-! ### The ALU and the immediate (R81 to R86, 30_encoding.md R56) -/

theorem aluAdd_toNat (b c : Word) : (aluAdd b c).toNat = (b.toNat + c.toNat) % 2 ^ 32 :=
  BitVec.toNat_add b c

theorem aluMul_toNat (b c : Word) : (aluMul b c).toNat = (b.toNat * c.toNat) % 2 ^ 32 :=
  BitVec.toNat_mul b c

theorem aluDiv_toNat (b c : Word) : (aluDiv b c).toNat = b.toNat / c.toNat :=
  BitVec.toNat_udiv

/-- A bit of the NAND is 0 exactly when both operands have it. -/
theorem aluNand_getLsbD_eq_false_iff (b c : Word) {i : Nat} (hi : i < 32) :
    (aluNand b c).getLsbD i = false ↔ b.getLsbD i = true ∧ c.getLsbD i = true := by
  have hbit : (aluNand b c).getLsbD i = !(b.getLsbD i && c.getLsbD i) := by
    rw [aluNand, BitVec.getLsbD_not, BitVec.getLsbD_and, decide_eq_true hi, Bool.true_and]
  rw [hbit, Bool.not_eq_false', Bool.and_eq_true]

/-- Extending 25 bits to 32 with zeros loses nothing. -/
theorem immediate_toNat (imm : Imm) : (immediate imm).toNat = imm.toNat :=
  BitVec.toNat_setWidth_of_le (by decide)

end Sys2Proof.Machine
end

section
/-! PROOFS. The register moves and ALU operations, each with its encoding, its result, its fault and its frame
(41_alu_and_moves.md R80 to R85). -/

namespace Sys2Proof.Proofs

open Sys2Proof.Machine Sys2Proof.Laws

/-- Settles O6: the two cases of the condition; only the first writes a register. -/
theorem cmovMovesWhenTheConditionIsNonzero : Obligations.CmovMovesWhenTheConditionIsNonzero := by
  refine ⟨fun w a b c => decode_of_formatS (op := 0) (by decide), fun a b c s => ?_⟩
  by_cases hc : s.reg c = 0
  · exact ⟨_, exec_eq_next.2 (.inr ⟨hc, rfl⟩), onlyRegister_advance a s,
      fun hne => absurd hc hne, fun _ => s.reg_advance a⟩
  · exact ⟨_, exec_eq_next.2 (.inl ⟨hc, rfl⟩), onlyRegister_setReg_advance a _ s,
      fun _ => s.reg_setReg_self a _, fun h0 => absurd h0 hc⟩

/-- Settles O7: the Word that ADD writes is the ALU's sum. -/
theorem addWritesTheSumModulo : Obligations.AddWritesTheSumModulo := by
  refine ⟨fun w a b c => decode_of_formatS (op := 3) (by decide), fun a b c s =>
    ⟨_, exec_eq_next.2 rfl, onlyRegister_setReg_advance a _ s, ?_⟩⟩
  rw [State.reg_advance, State.reg_setReg_self, aluAdd_toNat]

/-- Settles O8: the Word that MUL writes is the ALU's product. -/
theorem mulWritesTheProductModulo : Obligations.MulWritesTheProductModulo := by
  refine ⟨fun w a b c => decode_of_formatS (op := 4) (by decide), fun a b c s =>
    ⟨_, exec_eq_next.2 rfl, onlyRegister_setReg_advance a _ s, ?_⟩⟩
  rw [State.reg_advance, State.reg_setReg_self, aluMul_toNat]

/-- Settles O9: the two cases of the divisor, the ALU's quotient and the fault entry. -/
theorem divWritesTheUnsignedQuotient : Obligations.DivWritesTheUnsignedQuotient := by
  refine ⟨fun w a b c => decode_of_formatS (op := 5) (by decide), fun a b c s =>
    ⟨fun hc => ?quotient, fun hc => ?zero⟩⟩
  case quotient =>
    refine ⟨_, exec_eq_next.2 (.inl ⟨hc, rfl⟩), onlyRegister_setReg_advance a _ s, ?_⟩
    rw [State.reg_advance, State.reg_setReg_self, aluDiv_toNat]
  case zero => exact exec_eq_next.2 (.inr ⟨hc, rfl⟩)

/-- Settles O10: the Word that NAND writes, bit by bit. -/
theorem nandClearsTheCommonBits : Obligations.NandClearsTheCommonBits := by
  refine ⟨fun w a b c => decode_of_formatS (op := 6) (by decide), fun a b c s =>
    ⟨_, exec_eq_next.2 rfl, onlyRegister_setReg_advance a _ s, fun i hi => ?_⟩⟩
  rw [State.reg_advance, State.reg_setReg_self, aluNand_getLsbD_eq_false_iff _ _ hi]

/-- Settles O11: the Word that LOADI writes is the immediate, extended with zeros. -/
theorem loadiWritesTheZeroExtendedImmediate : Obligations.LoadiWritesTheZeroExtendedImmediate := by
  refine ⟨fun w a imm => decode_of_formatI, fun a imm s =>
    ⟨_, exec_eq_next.2 rfl, onlyRegister_setReg_advance a _ s, ?_⟩⟩
  rw [State.reg_advance, State.reg_setReg_self, immediate_toNat]

end Sys2Proof.Proofs
end

section
/-! SUPPORT. What SLOAD and SSTORE share with no other instruction: an offset at or beyond the end fails, and a
store leaves everything as it was but the addressed Word (20_memory.md R35 to R37, 42_segment_access.md). -/

namespace Sys2Proof.Machine.State

open Sys2Proof.Claims

variable {s t : State} {id off v n : Word}

/-! ### An offset at or beyond the end (R35) -/

theorem translate_of_len_le (h : s.lenOf id = some n) (hoff : n.toNat ≤ off.toNat) :
    s.translate id off = .error .invalidSegmentAccess := by
  cases ht : s.translate id off with
  | error k => rw [translate_eq_error ht]
  | ok g =>
    obtain ⟨m, hm, hlt⟩ := exists_translate_eq_ok.1 ⟨g, ht⟩
    obtain rfl : n = m := Option.some.inj (h.symm.trans hm)
    omega

theorem memRead_of_len_le (h : s.lenOf id = some n) (hoff : n.toNat ≤ off.toNat) :
    s.memRead id off = .error .invalidSegmentAccess :=
  map_eq_error.2 (translate_of_len_le h hoff)

theorem memWrite_of_len_le (h : s.lenOf id = some n) (hoff : n.toNat ≤ off.toNat) (v : Word) :
    s.memWrite id off v = .error .invalidSegmentAccess :=
  map_eq_error.2 (translate_of_len_le h hoff)

/-! ### What a read sees of the table -/

/-- A read of an id sees nothing of the table but the segment bound to that id. -/
theorem memRead_congr_segment (h : t.seg.segment id = s.seg.segment id) (off : Word) :
    t.memRead id off = s.memRead id off := by
  simp only [memRead, translate, getSegment, h]

/-- A read sees nothing of a segment but its length and the Word at the offset. -/
theorem memRead_congr_word {g g' : Segment} (hs : s.seg.segment id = some g)
    (ht : t.seg.segment id = some g') (hlen : g'.len = g.len) (hword : g'.read off = g.read off) :
    t.memRead id off = s.memRead id off := by
  simp only [memRead, translate, getSegment, hs, ht, hlen]
  split
  · rfl
  · exact congrArg Except.ok hword

/-! ### The frame of a store (R37) -/

/-- Every cell but the addressed one reads as before, whether it reads a Word or fails. -/
theorem memRead_of_memWrite_ne (h : s.memWrite id off v = .ok t) {id' off' : Word}
    (hne : (id', off') ≠ (id, off)) : t.memRead id' off' = s.memRead id' off' := by
  obtain ⟨g, hg, -, rfl⟩ := memWrite_eq_ok.1 h
  have hbound (q : Word) := Memory.segment_register s.seg id q (g.write off v)
  by_cases hid : id' = id
  · subst hid
    have hoff : off' ≠ off := fun e => hne (e ▸ rfl)
    exact memRead_congr_word hg ((hbound id').trans (if_pos rfl)) (g.write_len off v)
      ((g.read_write off off' v).trans (if_neg hoff))
  · exact memRead_congr_segment ((hbound id').trans (if_neg hid)) off'

theorem lenOf_of_memWrite (h : s.memWrite id off v = .ok t) (id' : Word) :
    t.lenOf id' = s.lenOf id' := by
  obtain ⟨g, hg, -, rfl⟩ := memWrite_eq_ok.1 h
  rw [lenOf_of_register rfl, Segment.write_len]
  split
  · next he => rw [he, lenOf, hg, Option.map_some]
  · rfl

/-- A store and the advance after it leave all but memory and `pc` (R37, R73). -/
theorem frame_of_memWrite (h : s.memWrite id off v = .ok t) :
    SameRegisters s t.advance ∧ SameAllocator s t.advance ∧ SameStreams s t.advance ∧
      WentOn s t.advance := by
  obtain ⟨g, -, -, rfl⟩ := memWrite_eq_ok.1 h
  exact ⟨fun _ => rfl, ⟨rfl, rfl⟩, ⟨rfl, rfl, rfl⟩, rfl, rfl, rfl⟩

end Sys2Proof.Machine.State
end

section
/-! PROOFS. The segment load and store, each with its encoding, its result, its faults and its frame
(42_segment_access.md R90, R91). -/

namespace Sys2Proof.Proofs

open Sys2Proof.Machine Sys2Proof.Laws

/-- Settles O12: the read succeeds exactly within the segment, and its Word goes to the register. -/
theorem sloadReadsTheAddressedWord : Obligations.SloadReadsTheAddressedWord := by
  refine ⟨fun w a b c => decode_of_formatS (op := 1) (by decide), fun a b c s id off haddr => ?_⟩
  obtain ⟨rfl, rfl⟩ := Prod.mk.inj haddr
  refine ⟨fun n hn hoff => ?within, fun hnone => ?unmapped, fun n hn hoff => ?beyond⟩
  case within =>
    obtain ⟨v, hv⟩ := State.exists_memRead_eq_ok.2 ⟨n, hn, hoff⟩
    refine ⟨_, exec_eq_next.2 (.inl ⟨v, hv, rfl⟩), onlyRegister_setReg_advance a v s, ?_⟩
    rw [State.reg_advance, State.reg_setReg_self, hv]
  case unmapped => exact exec_eq_next.2 (.inr ⟨_, State.memRead_of_lenOf_none hnone _, rfl⟩)
  case beyond => exact exec_eq_next.2 (.inr ⟨_, State.memRead_of_len_le hn hoff, rfl⟩)

/-- Settles O13: the write succeeds exactly within the segment; what is read after it is the stored Word at
the address, and the frame of a store elsewhere. -/
theorem sstoreWritesTheAddressedWord : Obligations.SstoreWritesTheAddressedWord := by
  refine ⟨fun w a b c => decode_of_formatS (op := 2) (by decide), fun a b c s id off haddr => ?_⟩
  obtain ⟨rfl, rfl⟩ := Prod.mk.inj haddr
  refine ⟨fun n hn hoff => ?within, fun hnone => ?unmapped, fun n hn hoff => ?beyond⟩
  case within =>
    obtain ⟨u, hu⟩ := (State.exists_memWrite_eq_ok (s.reg c)).2 ⟨n, hn, hoff⟩
    have hread (id' off' : Word) : u.advance.memRead id' off' = u.memRead id' off' :=
      State.memRead_congr u.advance_seg id' off'
    exact ⟨u.advance, exec_eq_next.2 (.inl ⟨u, hu, rfl⟩),
      (hread _ _).trans (State.memRead_of_memWrite hu),
      fun id' off' hne => (hread id' off').trans (State.memRead_of_memWrite_ne hu hne),
      fun id' => (State.lenOf_congr u.advance_seg id').trans (State.lenOf_of_memWrite hu id'),
      State.frame_of_memWrite hu⟩
  case unmapped => exact exec_eq_next.2 (.inr ⟨_, State.memWrite_of_lenOf_none hnone _ _, rfl⟩)
  case beyond => exact exec_eq_next.2 (.inr ⟨_, State.memWrite_of_len_le hn hoff _, rfl⟩)

end Sys2Proof.Proofs
end

section
/-! SUPPORT. What MAP and UNMAP do to the table and the allocator, through `Create` and `Delete`: when they
succeed, what they leave as it was, and the Words in use after each change of the table
(43_segment_allocation.md R95 to R104). -/

namespace Sys2Proof.Machine

open Sys2Proof.Claims

/-! ### The number of Words in use after each change of the table (R104) -/

namespace Memory

variable {m : Memory} {id : Word} {g : Segment}

theorem words_release_le (h : wf m) (id : Word) : words (m.release id) ≤ words m :=
  Nat.le.intro (words_drop h.1)

theorem words_register (h : wf m) (id : Word) (g : Segment) :
    words (m.register id g) = g.len.toNat + words (m.release id) :=
  words_put h.1

/-- Binding an id to a segment as long as the one it was bound to leaves the sum. -/
theorem words_rebind {g' : Segment} (h : wf m) (hg : segment m id = some g) (hlen : g'.len = g.len) :
    words (m.register id g') = words m := by
  have hsum := words_drop (k := id.toNat) h.1
  rw [show Sparse.find id.toNat m = some g from hg, Option.map_some, Option.getD_some] at hsum
  rw [words_register h, hlen, Nat.add_comm]
  exact hsum

end Memory

namespace State

variable {s t : State} {id n : Word} {g : Segment}

/-! ### The frame of a change of the table (R37, R97, R102) -/

theorem sameSegment_of_segment_eq (h : t.seg.segment id = s.seg.segment id) : SameSegment id s t :=
  ⟨congrArg (Option.map Segment.len) h, memRead_congr_segment h⟩

/-- Binding an id leaves the segments at the others. -/
theorem sameSegment_of_register (h : t.seg = s.seg.register id g) {q : Word} (hq : q ≠ id) :
    SameSegment q s t :=
  sameSegment_of_segment_eq (by rw [h, Memory.segment_register, if_neg hq])

/-- Unbinding an id leaves the segments at the others. -/
theorem sameSegment_of_release (h : t.seg = s.seg.release id) {q : Word} (hq : q ≠ id) :
    SameSegment q s t :=
  sameSegment_of_segment_eq (by rw [h, Memory.segment_release, if_neg hq])

/-! ### When `Create` succeeds (R95, R104) -/

/-- The storage check of R104 decides whether a number of Words fits. -/
theorem withinStorage_iff_fits {k : Nat} : withinStorage s.storageLimit k = true ↔ Fits s k := by
  unfold withinStorage Fits
  cases s.storageLimit with
  | none => simp
  | some l => simp

theorem withinStorage_eq_false_iff {k : Nat} :
    withinStorage s.storageLimit k = false ↔ ¬ Fits s k := by
  rw [← withinStorage_iff_fits, Bool.not_eq_true]

/-- An id is at hand exactly when one is free or the counter may still mint (R95). -/
theorem exists_allocateId_eq_ok :
    (∃ id u, s.allocateId = .ok (id, u)) ↔ s.free ≠ [] ∨ s.nextId ≤ idMax := by
  constructor
  · rintro ⟨id, u, ha⟩
    obtain ⟨rest, hfree, -⟩ | ⟨-, hid, -⟩ := allocateId_eq_ok.1 ha
    · exact .inl (by simp [hfree])
    · exact .inr hid
  · intro h
    cases hfree : s.free with
    | cons id rest => exact ⟨id, _, allocateId_eq_ok.2 (.inl ⟨rest, hfree, rfl⟩)⟩
    | nil =>
      have hid : s.nextId ≤ idMax := h.resolve_left (not_not.2 hfree)
      exact ⟨_, _, allocateId_eq_ok.2 (.inr ⟨hfree, hid, rfl, rfl⟩)⟩

/-- What fits gets its segment under the id that the allocator gives (R96). -/
theorem createSegment_of_allocateId (hfit : Fits s (n.toNat + s.seg.words))
    (ha : s.allocateId = .ok (id, t)) :
    s.createSegment n = .ok (id, { t with seg := t.seg.register id (Segment.zeros n) }) :=
  createSegment_eq_ok.2 ⟨withinStorage_iff_fits.2 hfit, t, ha, rfl⟩

/-- `Create` succeeds only when an id is at hand and the Words fit (R95, R104). -/
theorem allocateId_of_createSegment (h : s.createSegment n = .ok (id, t)) :
    Fits s (n.toNat + s.seg.words) ∧ ∃ u, s.allocateId = .ok (id, u) := by
  obtain ⟨hfit, u, ha, -⟩ := createSegment_eq_ok.1 h
  exact ⟨withinStorage_iff_fits.1 hfit, u, ha⟩

/-! ### What `Create` changes -/

/-- `Create` changes the table by one binding (R96). -/
theorem seg_of_createSegment (h : s.createSegment n = .ok (id, t)) :
    t.seg = s.seg.register id (Segment.zeros n) := by
  obtain ⟨-, u, ha, rfl⟩ := createSegment_eq_ok.1 h
  obtain ⟨rest, -, rfl⟩ | ⟨-, -, -, rfl⟩ := allocateId_eq_ok.1 ha <;> rfl

/-- `Create` pops the id it returns from the free stack, or, where that is empty, mints it (R95). -/
theorem allocator_of_createSegment (h : s.createSegment n = .ok (id, t)) :
    (s.free = id :: t.free ∧ t.nextId = s.nextId) ∨
      (s.free = [] ∧ id = s.nextId ∧ t.nextId.toNat = s.nextId.toNat + 1 ∧ t.free = []) := by
  obtain ⟨-, u, ha, rfl⟩ := createSegment_eq_ok.1 h
  obtain ⟨rest, hfree, rfl⟩ | ⟨hfree, hid, rfl, rfl⟩ := allocateId_eq_ok.1 ha
  · exact .inl ⟨hfree, rfl⟩
  · exact .inr ⟨hfree, rfl, toNat_succ_of_le_idMax hid, hfree⟩

/-- `Create`, the write of the id to a register and the advance after it leave all else but the table and
the allocator (R99). -/
theorem frame_of_createSegment (h : s.createSegment n = .ok (id, t)) (r : Reg) :
    SameRegistersBut r s (t.setReg r id).advance ∧ SameStreams s (t.setReg r id).advance ∧
      WentOn s (t.setReg r id).advance := by
  have hregs (v : State) (hx : v.x = s.x) : SameRegistersBut r s (v.setReg r id).advance :=
    fun q hq => (v.reg_setReg_ne hq id).trans (reg_congr hx q)
  obtain ⟨-, u, ha, rfl⟩ := createSegment_eq_ok.1 h
  obtain ⟨rest, -, rfl⟩ | ⟨-, -, -, rfl⟩ := allocateId_eq_ok.1 ha <;>
    exact ⟨hregs _ rfl, ⟨rfl, rfl, rfl⟩, rfl, rfl, rfl⟩

/-! ### What keeps the Words in use within STORAGE_LIMIT (R104) -/

theorem fits_of_le {j k : Nat} (h : Fits s k) (hle : j ≤ k) : Fits s j :=
  fun l hl => hle.trans (h l hl)

/-- A new segment was counted before it was bound. -/
theorem fits_of_createSegment (hwf : s.seg.wf) (h : s.createSegment n = .ok (id, t)) :
    Fits s t.seg.words := by
  obtain ⟨hfit, -⟩ := allocateId_of_createSegment h
  refine fits_of_le hfit ?_
  rw [seg_of_createSegment h, Memory.words_register hwf, Segment.zeros_len]
  exact Nat.add_le_add_left (Memory.words_release_le hwf id) _

theorem fits_of_deleteSegment (hwf : s.seg.wf) (hs : Fits s s.seg.words)
    (h : s.deleteSegment id = .ok t) : Fits s t.seg.words := by
  obtain ⟨-, -, rfl⟩ := deleteSegment_eq_ok.1 h
  exact fits_of_le hs (Memory.words_release_le hwf id)

theorem fits_of_memWrite {off v : Word} (hwf : s.seg.wf) (hs : Fits s s.seg.words)
    (h : s.memWrite id off v = .ok t) : Fits s t.seg.words := by
  obtain ⟨g, hg, -, rfl⟩ := memWrite_eq_ok.1 h
  rwa [Memory.words_rebind hwf hg (g.write_len off v)]

/-- The copy was counted in place of the old segment 0. -/
theorem fits_of_copyToZero (hwf : s.seg.wf) (hs : Fits s s.seg.words)
    (h : s.copyToZero id = .ok t) : Fits s t.seg.words := by
  obtain ⟨-, rfl⟩ | ⟨-, g, -, hfit, rfl⟩ := copyToZero_eq_ok.1 h
  · exact hs
  · rw [Memory.words_register hwf]
    exact withinStorage_iff_fits.1 hfit

/-- The id at hand for the next allocation is never the all-ones Word (D3). -/
theorem Inv.allocateId_ne_allOnes (h : s.Inv) (ha : s.allocateId = .ok (id, t)) :
    id ≠ 0xFFFFFFFF := by
  rintro rfl
  obtain ⟨rest, hfree, -⟩ | ⟨-, hid, hnext, -⟩ := allocateId_eq_ok.1 ha
  · have hbound : s.nextId.toNat ≤ (0xFFFFFFFF : Word).toNat := Nat.le_of_lt_succ s.nextId.isLt
    exact (h.fresh hbound).2 (by simp [hfree])
  · exact absurd (hnext ▸ hid) (by decide)

end State

/-! ### The instructions that leave the table and the allocator (R105) -/

namespace Change

variable {i : Instr} {s t : State}

/-- The parameter STORAGE_LIMIT is fixed at reset. -/
theorem storageLimit_eq (hc : Change i s t) : t.storageLimit = s.storageLimit := by
  cases hc with
  | _ => rename_i ht; subst ht; rfl

/-- The table and the allocator change only at MAP, UNMAP, LOADP and SSTORE. -/
theorem table_eq (hc : Change i s t)
    (hi : ∀ a b c, i ≠ .map a b c ∧ i ≠ .unmap a b c ∧ i ≠ .loadp a b c ∧ i ≠ .sstore a b c) :
    t.seg = s.seg ∧ SameAllocator s t := by
  have hmap (a b c : Reg) : i ≠ .map a b c := (hi a b c).1
  have hunmap (a b c : Reg) : i ≠ .unmap a b c := (hi a b c).2.1
  have hloadp (a b c : Reg) : i ≠ .loadp a b c := (hi a b c).2.2.1
  have hsstore (a b c : Reg) : i ≠ .sstore a b c := (hi a b c).2.2.2
  cases hc with
  | stored he => exact absurd he (hsstore _ _ _)
  | reused he | minted he => exact absurd he (hmap _ _ _)
  | released he => exact absurd he (hunmap _ _ _)
  | copied he => exact absurd he (hloadp _ _ _)
  | _ => rename_i ht; subst ht; exact ⟨rfl, rfl, rfl⟩

end Change

end Sys2Proof.Machine
end

section
/-! PROOFS. MAP and UNMAP, and what each instruction does to the segment table and to the Words in use
(43_segment_allocation.md R95 to R105). -/

namespace Sys2Proof.Proofs

open Sys2Proof.Machine Sys2Proof.Claims Sys2Proof.Laws

/-! ### MAP and UNMAP -/

/-- Settles O15: `Create` succeeds exactly when the Words fit and an id is at hand; the id it gives and the
segment it binds are those of R95 and R96. -/
theorem mapCreatesAZeroFilledSegment : Obligations.MapCreatesAZeroFilledSegment := by
  refine ⟨fun w a b c => decode_of_formatS (op := 8) (by decide), fun a b c s => ?_⟩
  refine ⟨fun hfit hid => ?created, fun hfit => ?storage, fun hfit hfree hid => ?ids⟩
  case created =>
    obtain ⟨id, v, ha⟩ := State.exists_allocateId_eq_ok.2 hid
    obtain ⟨u, hu⟩ : ∃ u, s.createSegment (s.reg c) = .ok (id, u) :=
      ⟨_, State.createSegment_of_allocateId hfit ha⟩
    have hseg : (u.setReg b id).advance.seg = s.seg.register id (Segment.zeros (s.reg c)) :=
      State.seg_of_createSegment (t := u) hu
    refine ⟨_, id, exec_eq_next.2 (.inl ⟨id, u, hu, rfl⟩), u.reg_setReg_self b id,
      fun hnil => ?minted, fun hne => ?reused,
      (State.lenOf_of_register hseg id).trans (if_pos rfl),
      fun off hoff => State.memRead_of_register hseg hoff,
      fun id' hne => State.sameSegment_of_register hseg hne, State.frame_of_createSegment hu b⟩
    case minted =>
      obtain ⟨hpop, -⟩ | ⟨-, hmint⟩ := State.allocator_of_createSegment hu
      · exact absurd (hnil.symm.trans hpop) nofun
      · exact hmint
    case reused =>
      obtain hpop | ⟨hnil, -⟩ := State.allocator_of_createSegment hu
      · exact hpop
      · exact absurd hnil hne
  case storage =>
    have hcheck := State.withinStorage_eq_false_iff.2 hfit
    exact exec_eq_next.2 (.inr ⟨_, State.createSegment_eq_error.2 (.inl ⟨hcheck, rfl⟩), rfl⟩)
  case ids =>
    have hcheck := State.withinStorage_iff_fits.2 hfit
    have hnone : s.allocateId = .error .idSpaceExhausted :=
      State.allocateId_eq_error.2 ⟨hfree, Nat.not_le.2 hid, rfl⟩
    exact exec_eq_next.2 (.inr ⟨_, State.createSegment_eq_error.2 (.inr ⟨hcheck, hnone⟩), rfl⟩)

/-- Settles O16: the three cases of `Delete`. -/
theorem unmapReleasesTheSegment : Obligations.UnmapReleasesTheSegment := by
  refine ⟨fun w a b c => decode_of_formatS (op := 9) (by decide), fun a b c s => ?_⟩
  refine ⟨fun h0 hm => ?released, fun h0 => ?reserved, fun h0 hm => ?unmapped⟩
  case released =>
    have hu := State.deleteSegment_eq_ok.2 ⟨h0, hm, rfl⟩
    exact ⟨_, exec_eq_next.2 (.inl ⟨_, hu, rfl⟩),
      State.lenOf_eq_none.1 ((State.lenOf_of_release rfl _).trans (if_pos rfl)), rfl, rfl,
      fun id' hne => State.sameSegment_of_release rfl hne, fun _ => rfl, ⟨rfl, rfl, rfl⟩,
      rfl, rfl, rfl⟩
  case reserved =>
    exact exec_eq_next.2 (.inr ⟨_, State.deleteSegment_eq_error.2 (.inl ⟨h0, rfl⟩), rfl⟩)
  case unmapped =>
    exact exec_eq_next.2 (.inr ⟨_, State.deleteSegment_eq_error.2 (.inr ⟨h0, hm, rfl⟩), rfl⟩)

/-- Settles O33: the id that MAP writes is the one that the allocator had at hand. -/
theorem mapReturnsAnUnusedId : Obligations.MapReturnsAnUnusedId := by
  intro a b c s t hs _ h ht
  obtain ⟨id, u, hu, rfl⟩ := effect_of_running (exec_eq_next.1 h) ht
  obtain ⟨-, v, ha⟩ := State.allocateId_of_createSegment hu
  obtain ⟨h0, hunmapped⟩ := hs.allocateId_unmapped ha
  rw [State.reg_advance, State.reg_setReg_self]
  exact ⟨h0, hs.allocateId_ne_allOnes ha, hunmapped,
    (State.mapped_of_register (State.seg_of_createSegment hu) id).2 (.inl rfl)⟩

/-! ### Unmapping and mapping lists of segments (R103) -/

theorem unmapAll_cons_eq_ok {id : Word} {ids : List Word} {s t : State} :
    unmapAll (id :: ids) s = .ok t ↔ ∃ u, s.deleteSegment id = .ok u ∧ unmapAll ids u = .ok t := by
  rw [unmapAll]
  cases s.deleteSegment id <;> simp

theorem mapAll_cons_of_ok {n id : Word} {ns ids : List Word} {s t u : State}
    (hn : s.createSegment n = .ok (id, t)) (hns : mapAll ns t = .ok (ids, u)) :
    mapAll (n :: ns) s = .ok (id :: ids, u) := by
  simp only [mapAll, hn, hns]

/-- Ids unmapped one after another are pushed one after another (R97). -/
theorem allocator_of_unmapAll {ids : List Word} {s t : State} (h : unmapAll ids s = .ok t) :
    t.free = ids.reverse ++ s.free ∧ t.nextId = s.nextId ∧ t.storageLimit = s.storageLimit := by
  induction ids generalizing s with
  | nil => cases h; exact ⟨rfl, rfl, rfl⟩
  | cons id ids ih =>
    obtain ⟨u, hu, hrest⟩ := unmapAll_cons_eq_ok.1 h
    obtain ⟨-, -, rfl⟩ := State.deleteSegment_eq_ok.1 hu
    obtain ⟨hfree, hnext, hlimit⟩ := ih hrest
    refine ⟨?_, hnext, hlimit⟩
    rw [hfree, List.reverse_cons, List.append_assoc, List.singleton_append]

/-- Without a STORAGE_LIMIT segments of any lengths get the ids on top of the free stack, in its order
(R95). -/
theorem mapAll_pops {ids rest lens : List Word} {s : State} (hlimit : s.storageLimit = none)
    (hfree : s.free = ids ++ rest) (hlen : lens.length = ids.length) :
    ∃ u, mapAll lens s = .ok (ids, u) ∧ u.free = rest ∧ u.nextId = s.nextId := by
  induction lens generalizing ids s with
  | nil =>
    obtain rfl := List.length_eq_zero_iff.1 hlen.symm
    exact ⟨s, rfl, hfree, rfl⟩
  | cons n ns ih =>
    obtain ⟨id, ids, rfl⟩ := List.exists_cons_of_length_eq_add_one hlen.symm
    have hfit : Fits s (n.toNat + s.seg.words) := fun l hl => nomatch hlimit.symm.trans hl
    have ha := State.allocateId_eq_ok.2 (.inl ⟨ids ++ rest, hfree, rfl⟩)
    obtain ⟨v, hn, hpop, hkeep, hnone⟩ : ∃ v, s.createSegment n = .ok (id, v) ∧
        v.free = ids ++ rest ∧ v.nextId = s.nextId ∧ v.storageLimit = none :=
      ⟨_, State.createSegment_of_allocateId hfit ha, rfl, rfl, hlimit⟩
    obtain ⟨u, hns, hrest, hnext⟩ := ih hnone hpop (Nat.succ.inj hlen)
    exact ⟨u, mapAll_cons_of_ok hn hns, hrest, hnext.trans hkeep⟩

/-- Settles O34: unmapping pushes the ids, and mapping pops them again. -/
theorem freedIdsComeBackLastFreedFirst : Obligations.FreedIdsComeBackLastFreedFirst := by
  intro s t ids lens hlimit hlen h
  obtain ⟨hfree, hnext, hkeep⟩ := allocator_of_unmapAll h
  obtain ⟨u, hu, hrest, hcount⟩ :=
    mapAll_pops (hkeep.trans hlimit) hfree (hlen.trans List.length_reverse.symm)
  exact ⟨u, hu, hrest, hcount.trans hnext⟩

/-! ### What each instruction does to the table (R105) -/

section Table

variable {a b c : Reg} {s t : State}

/-- MAP with Words that fit and an id at hand adds that id's binding. -/
theorem map_binds (h : exec (.map a b c) s = .next t) {id : Word} {u : State}
    (ha : s.allocateId = .ok (id, u)) (hfit : Fits s ((s.reg c).toNat + s.seg.words)) :
    id = s.free.headD s.nextId ∧ (s.Inv → s.mapped id = false) ∧ t.lenOf id = some (s.reg c) ∧
      (∀ id', id' ≠ id → SameSegment id' s t) ∧ SameAllocator u t := by
  have hu := State.createSegment_of_allocateId hfit ha
  obtain rfl := Host.Outcome.next.inj (h.symm.trans (exec_eq_next.2 (.inl ⟨id, _, hu, rfl⟩)))
  have hseg := State.seg_of_createSegment hu
  exact ⟨State.createSegment_id hu, fun hs => (hs.allocateId_unmapped ha).2,
    (State.lenOf_of_register hseg id).trans (if_pos rfl),
    fun id' hne => State.sameSegment_of_register hseg hne, rfl, rfl⟩

/-- MAP without an id at hand, or with Words that do not fit, faults. -/
theorem map_keeps (h : exec (.map a b c) s = .next t)
    (hfail : (∀ id u, s.allocateId ≠ .ok (id, u)) ∨ ¬ Fits s ((s.reg c).toNat + s.seg.words)) :
    t.seg = s.seg ∧ SameAllocator s t := by
  obtain ⟨id, u, hu, -⟩ | ⟨k, -, rfl⟩ := exec_eq_next.1 h
  · obtain ⟨hfit, v, ha⟩ := State.allocateId_of_createSegment hu
    exact absurd hfail (by simpa [hfit] using ⟨id, v, ha⟩)
  · exact ⟨rfl, rfl, rfl⟩

/-- UNMAP removes the binding of a mapped id that is not 0, and no other. -/
theorem unmap_unbinds (h : exec (.unmap a b c) s = .next t) :
    (∀ id', id' ≠ s.reg c → SameSegment id' s t) ∧
      (s.reg c ≠ 0 → s.mapped (s.reg c) = true → t.mapped (s.reg c) = false ∧
        t.free = s.reg c :: s.free ∧ t.nextId = s.nextId) ∧
      (s.reg c = 0 ∨ s.mapped (s.reg c) = false → t.seg = s.seg ∧ SameAllocator s t) := by
  obtain ⟨u, hu, rfl⟩ | ⟨k, hk, rfl⟩ := exec_eq_next.1 h
  · have hgone := State.lenOf_eq_none.1 (State.lenOf_of_deleteSegment hu)
    obtain ⟨h0, hm, rfl⟩ := State.deleteSegment_eq_ok.1 hu
    refine ⟨fun id' hne => State.sameSegment_of_release rfl hne, fun _ _ => ⟨hgone, rfl, rfl⟩,
      fun hfail => ?_⟩
    exact hfail.elim (fun hz => absurd hz h0) fun hnone => absurd (hm.symm.trans hnone) nofun
  · refine ⟨fun id' _ => sameMemory_of_seg_eq rfl id', fun h0 hm => ?_, fun _ => ⟨rfl, rfl, rfl⟩⟩
    obtain ⟨hz, -⟩ | ⟨-, hnone, -⟩ := State.deleteSegment_eq_error.1 hk
    · exact absurd hz h0
    · exact absurd (hm.symm.trans hnone) nofun

/-- LOADP rebinds id 0 at most. -/
theorem loadp_rebinds_zero (h : exec (.loadp a b c) s = .next t) :
    SameAllocator s t ∧ ∀ id', id' ≠ 0 → SameSegment id' s t := by
  obtain ⟨u, hu, rfl⟩ | ⟨k, -, rfl⟩ := exec_eq_next.1 h
  · obtain ⟨-, rfl⟩ | ⟨-, g, -, -, rfl⟩ := State.copyToZero_eq_ok.1 hu
    · exact ⟨⟨rfl, rfl⟩, fun id' _ => sameMemory_of_seg_eq rfl id'⟩
    · exact ⟨⟨rfl, rfl⟩, fun id' h0 => State.sameSegment_of_register rfl h0⟩
  · exact ⟨⟨rfl, rfl⟩, fun id' _ => sameMemory_of_seg_eq rfl id'⟩

/-- SSTORE changes the addressed Word at most. -/
theorem sstore_changes_one_word (h : exec (.sstore a b c) s = .next t) :
    SameAllocator s t ∧ (∀ id', t.lenOf id' = s.lenOf id') ∧
      ∀ id' off', (id', off') ≠ s.address a b → t.memRead id' off' = s.memRead id' off' := by
  obtain ⟨u, hu, rfl⟩ | ⟨k, -, rfl⟩ := exec_eq_next.1 h
  · obtain ⟨-, halloc, -⟩ := State.frame_of_memWrite hu
    exact ⟨halloc, fun id' => (State.lenOf_congr u.advance_seg id').trans (State.lenOf_of_memWrite hu id'),
      fun id' off' hne => (State.memRead_congr u.advance_seg id' off').trans
        (State.memRead_of_memWrite_ne hu hne)⟩
  · exact ⟨⟨rfl, rfl⟩, fun _ => rfl, fun _ _ _ => rfl⟩

end Table

/-- Settles O31, one lemma for each of the four instructions and `Change.table_eq` for the others. -/
theorem onlyFourInstructionsTouchTheTable : Obligations.OnlyFourInstructionsTouchTheTable := by
  refine fun i s t h => ⟨?map, ?unmap, ?loadp, ?sstore, (exec_change h).table_eq⟩
  case map =>
    rintro a b c rfl
    exact ⟨fun _ _ ha hfit => map_binds h ha hfit, map_keeps h⟩
  case unmap => rintro a b c rfl; exact unmap_unbinds h
  case loadp => rintro a b c rfl; exact loadp_rebinds_zero h
  case sstore => rintro a b c rfl; exact sstore_changes_one_word h

/-! ### The Words in use (R104) -/

/-- An instruction that finds the Words in use within STORAGE_LIMIT leaves them so. -/
theorem exec_keeps_fits {i : Instr} {s t : State} (hwf : s.seg.wf) (hs : Fits s s.seg.words)
    (h : exec i s = .next t) : Fits s t.seg.words := by
  cases i with
  | map a b c =>
    obtain ⟨id, u, hu, rfl⟩ | ⟨k, -, rfl⟩ := exec_eq_next.1 h
    exacts [(State.fits_of_createSegment hwf hu : Fits s u.seg.words), hs]
  | unmap a b c =>
    obtain ⟨u, hu, rfl⟩ | ⟨k, -, rfl⟩ := exec_eq_next.1 h
    exacts [(State.fits_of_deleteSegment hwf hs hu : Fits s u.seg.words), hs]
  | loadp a b c =>
    obtain ⟨u, hu, rfl⟩ | ⟨k, -, rfl⟩ := exec_eq_next.1 h
    exacts [(State.fits_of_copyToZero hwf hs hu : Fits s u.seg.words), hs]
  | sstore a b c =>
    obtain ⟨u, hu, rfl⟩ | ⟨k, -, rfl⟩ := exec_eq_next.1 h
    exacts [(State.fits_of_memWrite hwf hs hu : Fits s u.seg.words), hs]
  | _ =>
    obtain ⟨hseg, -⟩ := (exec_change h).table_eq fun _ _ _ => ⟨nofun, nofun, nofun, nofun⟩
    rwa [hseg]

/-- Settles O37: a fetch fault leaves the table, and an instruction keeps the Words in use within the
limit. -/
theorem storageLimitIsNeverPassed : Obligations.StorageLimitIsNeverPassed := by
  intro s t l hwf hlimit hle h
  obtain ⟨-, ⟨rfl, -⟩ | ⟨w, -, he⟩⟩ := step_cases h
  · exact ⟨hlimit, hle⟩
  · have hs : Fits s s.seg.words := fun l' hl' => Option.some.inj (hlimit.symm.trans hl') ▸ hle
    exact ⟨(exec_change he).storageLimit_eq.trans hlimit, exec_keeps_fits hwf hs he l hlimit⟩

end Sys2Proof.Proofs
end

section
/-! SUPPORT. What OUT and IN share with no other instruction: the byte that a Word within the output's range
becomes, what an input delivers and consumes, and what both leave as it was (44_input_output.md R110 to
R114). -/

namespace Sys2Proof.Machine

open Sys2Proof.Claims

/-- The byte of a Word within the output's range is the Word's value: nothing is truncated (R110). -/
theorem byteOfWord_toNat {v : Word} (h : v.toNat ≤ 255) :
    (v.setWidth 8 : Byte).toNat = v.toNat := by
  rw [BitVec.toNat_setWidth]
  exact Nat.mod_eq_of_lt (Nat.lt_succ_of_le h)

/-- Extending a byte to a Word with zeros keeps its value (R111). -/
theorem wordOfByte_toNat (b : Byte) : (b.setWidth 32 : Word).toNat = b.toNat :=
  BitVec.toNat_setWidth_of_le (by decide)

namespace State

variable {s : State}

/-- While a byte is left, an input delivers it and consumes it (R113). -/
theorem inputWord_of_byte {b : Byte} (h : s.input[s.inPos]? = some b) :
    s.inputWord = (b.setWidth 32, { s with inPos := s.inPos + 1 }) := by
  obtain ⟨b', hb, hword⟩ | ⟨hnone, -⟩ := s.inputWord_cases
  · rw [hword, Option.some.inj (hb.symm.trans h)]
  · exact absurd (hnone.symm.trans h) nofun

/-- At end of stream an input delivers the sentinel and consumes nothing (R114). -/
theorem inputWord_of_end (h : s.input.length ≤ s.inPos) : s.inputWord = (endOfStream, s) := by
  obtain ⟨b, hb, -⟩ | ⟨-, hword⟩ := s.inputWord_cases
  · exact absurd (hb.symm.trans (List.getElem?_eq_none h)) nofun
  · exact hword

/-- Of the state before it, an input changes nothing but `in_pos`. -/
theorem exists_inputWord_state (s : State) : ∃ n, s.inputWord.2 = { s with inPos := n } := by
  obtain ⟨b, -, hword⟩ | ⟨-, hword⟩ := s.inputWord_cases
  · exact ⟨s.inPos + 1, congrArg Prod.snd hword⟩
  · exact ⟨s.inPos, congrArg Prod.snd hword⟩

/-- An input, a register write and the advance after them leave all but that register, `in_pos` and `pc`
(R111, R73). -/
theorem frame_of_inputWord (s : State) (r : Reg) (v : Word) :
    SameRegistersBut r s (s.inputWord.2.setReg r v).advance ∧
      SameMemory s (s.inputWord.2.setReg r v).advance ∧
      SameAllocator s (s.inputWord.2.setReg r v).advance ∧
      (s.inputWord.2.setReg r v).advance.input = s.input ∧
      (s.inputWord.2.setReg r v).advance.out = s.out ∧
      WentOn s (s.inputWord.2.setReg r v).advance := by
  obtain ⟨n, hstate⟩ := s.exists_inputWord_state
  rw [hstate]
  exact ⟨fun _ hr => reg_setReg_ne _ hr v, sameMemory_of_seg_eq rfl, ⟨rfl, rfl⟩, rfl, rfl,
    rfl, rfl, rfl⟩

end State

end Sys2Proof.Machine
end

section
/-! PROOFS. Output and input, each with its encoding, its result, its fault and its frame
(44_input_output.md R110, R111). -/

namespace Sys2Proof.Proofs

open Sys2Proof.Machine Sys2Proof.Laws

/-- Settles O17: the two cases of the range check; within the range the byte is the register's value. -/
theorem outputEmitsOneByte : Obligations.OutputEmitsOneByte := by
  refine ⟨fun w a b c => decode_of_formatS (op := 10) (by decide), fun a b c s =>
    ⟨fun hle => ?emitted, fun hgt => ?range⟩⟩
  case emitted =>
    exact ⟨_, _, exec_eq_next.2 (.inl ⟨hle, rfl⟩), rfl, byteOfWord_toNat hle, rfl, rfl,
      fun _ => rfl, sameMemory_of_seg_eq rfl, ⟨rfl, rfl⟩, rfl, rfl, rfl⟩
  case range => exact exec_eq_next.2 (.inr ⟨hgt, rfl⟩)

/-- Settles O18: the frame is the same in both cases of the stream; the Word delivered and `in_pos` are
those of a byte left, or of the end. -/
theorem inputReadsOneByteOrTheSentinel : Obligations.InputReadsOneByteOrTheSentinel := by
  refine ⟨fun w a b c => decode_of_formatS (op := 11) (by decide), fun a b c s => ?_⟩
  obtain ⟨hregs, hmem, halloc, hinput, hout, hon⟩ := s.frame_of_inputWord c s.inputWord.1
  refine ⟨_, exec_eq_next.2 rfl, hregs, hmem, halloc, hinput, hout, hon,
    fun byte hbyte => ?byteLeft, fun hend => ?atEnd⟩
  case byteLeft =>
    rw [State.reg_advance, State.reg_setReg_self, State.inputWord_of_byte hbyte]
    exact ⟨wordOfByte_toNat byte, rfl⟩
  case atEnd =>
    rw [State.reg_advance, State.reg_setReg_self, State.inputWord_of_end hend]
    exact ⟨rfl, rfl⟩

end Sys2Proof.Proofs
end

section
/-! SUPPORT. Load Program's copy as a change of segment 0: when it succeeds, when it fails, and what segment 0
then is (45_control.md R121, 43_segment_allocation.md R102, R104). -/

namespace Sys2Proof.Machine.State

open Sys2Proof.Claims

variable {s t : State} {id n : Word}

/-- Two ids, in two states, that are bound to one and the same segment read alike, also where the read
fails. -/
theorem memRead_of_same_segment {id' : Word} (h : t.seg.segment id' = s.seg.segment id) (off : Word) :
    t.memRead id' off = s.memRead id off := by
  simp only [memRead, translate, getSegment, h]

/-- A mapped segment whose copy fits in place of the old segment 0 becomes segment 0 (R102). -/
theorem copyToZero_of_fits (h0 : id ≠ 0) (hn : s.lenOf id = some n)
    (hfit : Fits s (n.toNat + (s.seg.release 0).words)) :
    ∃ g, s.seg.segment id = some g ∧ g.len = n ∧
      s.copyToZero id = .ok { s with seg := s.seg.register 0 g } := by
  obtain ⟨g, hg, rfl⟩ := Option.map_eq_some_iff.1 hn
  exact ⟨g, hg, rfl, copyToZero_eq_ok.2 (.inr ⟨h0, g, hg, withinStorage_iff_fits.2 hfit, rfl⟩)⟩

theorem copyToZero_of_lenOf_none (h0 : id ≠ 0) (hnone : s.lenOf id = none) :
    s.copyToZero id = .error .invalidSegmentAccess :=
  copyToZero_eq_error.2 ⟨h0, .inl ⟨Option.map_eq_none_iff.1 hnone, rfl⟩⟩

theorem copyToZero_of_not_fits (h0 : id ≠ 0) (hn : s.lenOf id = some n)
    (hfit : ¬ Fits s (n.toNat + (s.seg.release 0).words)) :
    s.copyToZero id = .error .storageExhausted := by
  obtain ⟨g, hg, rfl⟩ := Option.map_eq_some_iff.1 hn
  exact copyToZero_eq_error.2 ⟨h0, .inr ⟨g, hg, withinStorage_eq_false_iff.2 hfit, rfl⟩⟩

end Sys2Proof.Machine.State
end

section
/-! PROOFS. Halt and Load Program, each with its encoding, its result, its faults and its frame
(45_control.md R120, R121). -/

namespace Sys2Proof.Proofs

open Sys2Proof.Machine Sys2Proof.Laws

/-- Settles O14: HALT changes the status alone, and no step is taken from a status that is not Running. -/
theorem haltStopsAndChangesNothingElse : Obligations.HaltStopsAndChangesNothingElse := by
  refine ⟨fun w a b c => decode_of_formatS (op := 7) (by decide), fun a b c s => ?_⟩
  exact ⟨_, exec_eq_next.2 rfl, rfl, rfl, fun _ => rfl, sameMemory_of_seg_eq rfl, ⟨rfl, rfl⟩,
    ⟨rfl, rfl, rfl⟩, rfl, fun hstep => nomatch (stepIsTakenExactlyWhileRunning _).1 hstep⟩

/-- Settles O19: the four cases of the copy; where it succeeds, id 0 is bound to the source's own segment and
`pc` is set after it. -/
theorem loadpCopiesThenJumps : Obligations.LoadpCopiesThenJumps := by
  refine ⟨fun w a b c => decode_of_formatS (op := 12) (by decide), fun a b c s => ?_⟩
  refine ⟨fun h0 => ?jumped, fun n h0 hn hfit => ?copied, fun h0 hnone => ?unmapped,
    fun n h0 hn hfit => ?storage⟩
  case jumped =>
    have hcopy : s.copyToZero (s.reg b) = .ok s := State.copyToZero_eq_ok.2 (.inl ⟨h0, rfl⟩)
    exact ⟨_, exec_eq_next.2 (.inl ⟨s, hcopy, rfl⟩), rfl, rfl, fun _ => rfl,
      sameMemory_of_seg_eq rfl, ⟨rfl, rfl⟩, ⟨rfl, rfl, rfl⟩, rfl⟩
  case copied =>
    obtain ⟨g, hg, hlen, hcopy⟩ := State.copyToZero_of_fits h0 hn hfit
    have hbound : (s.seg.register 0 g).segment 0 = some g :=
      (Memory.segment_register s.seg 0 0 g).trans (if_pos rfl)
    exact ⟨_, exec_eq_next.2 (.inl ⟨_, hcopy, rfl⟩), rfl, rfl,
      Option.map_eq_some_iff.2 ⟨g, hbound, hlen⟩,
      State.memRead_of_same_segment (hbound.trans hg.symm),
      fun id' hne => State.sameSegment_of_register rfl hne, fun _ => rfl, ⟨rfl, rfl⟩,
      ⟨rfl, rfl, rfl⟩, rfl⟩
  case unmapped => exact exec_eq_next.2 (.inr ⟨_, State.copyToZero_of_lenOf_none h0 hnone, rfl⟩)
  case storage => exact exec_eq_next.2 (.inr ⟨_, State.copyToZero_of_not_fits h0 hn hfit, rfl⟩)

end Sys2Proof.Proofs
end

section
/-! SUPPORT. The status port read back: a status from its `state` and `fault_code`, and a fault kind from its
code (50_interfaces.md R140, 60_exceptions.md R150). -/

namespace Sys2Proof.Machine

/-- The fault kind that R150's table gives a code; code 0 and the codes above 9 name none. -/
def FaultKind.ofCode : BitVec 4 → Option FaultKind
  | 1 => some .invalidOpcode
  | 2 => some .divisionByZero
  | 3 => some .outputRangeError
  | 4 => some .invalidSegmentAccess
  | 5 => some .unmapReservedSegment
  | 6 => some .idSpaceExhausted
  | 7 => some .outOfBoundsFetch
  | 8 => some .programLoadError
  | 9 => some .storageExhausted
  | _ => none

/-- The status that the environment sees on the port; `state` 0 and 1 need no fault code. -/
def Status.ofPort : BitVec 2 × BitVec 4 → Option Status
  | (0, _) => some .running
  | (1, _) => some .halted
  | (2, c) => (FaultKind.ofCode c).map .faulted
  | _ => none

@[simp] theorem FaultKind.ofCode_code (k : FaultKind) : ofCode k.code = some k := by
  cases k <;> rfl

/-- Code 0 is left for the statuses without a fault. -/
theorem FaultKind.code_ne_zero (k : FaultKind) : k.code ≠ 0 := by
  cases k <;> decide

theorem Status.ofPort_statusPort (p : Status) : ofPort (statusPort p) = some p := by
  cases p with
  | running => rfl
  | halted => rfl
  | faulted k => exact congrArg (Option.map Status.faulted) k.ofCode_code

theorem statusPort_snd_eq_zero_iff (p : Status) :
    (statusPort p).2 = 0 ↔ ∀ k, p ≠ .faulted k := by
  cases p with
  | running => exact iff_of_true rfl nofun
  | halted => exact iff_of_true rfl nofun
  | faulted k => exact iff_of_false k.code_ne_zero fun h => h k rfl

end Sys2Proof.Machine
end

section
/-! PROOFS. What the environment can tell of the core through the status port (50_interfaces.md R140). -/

namespace Sys2Proof.Proofs

open Sys2Proof.Machine

/-- Settles O48: a status can be read back from the port, so no two share one. -/
theorem statusPortTellsStatusesApart : Obligations.StatusPortTellsStatusesApart := by
  refine ⟨fun p q hport => ?_, statusPort_snd_eq_zero_iff⟩
  have hread : some p = some q := by
    rw [← p.ofPort_statusPort, hport, q.ofPort_statusPort]
  exact Option.some.inj hread

end Sys2Proof.Proofs
end

section
/-! SUPPORT. Where each fault comes from: a fetch beyond the end, and after decode the rows of R171's table,
with for each entry a Running state that raises it (60_exceptions.md sections 1 and 3). -/

namespace Sys2Proof.Machine

open Sys2Proof.Claims

/-- A fetch at or beyond the end of segment 0 fails: it is a read there (R38, R157). -/
theorem State.fetch_of_len_le {s : State} {n : Word} (hn : s.lenOf 0 = some n)
    (hpc : n.toNat ≤ s.pc.toNat) : s.fetch = .error .outOfBoundsFetch := by
  cases hf : s.fetch with
  | error k => rw [State.fetch_eq_error hf]
  | ok w =>
    have hread : s.memRead 0 s.pc = .ok w := State.memRead_of_fetch hf
    rw [State.memRead_of_len_le hn hpc] at hread
    cases hread

/-- An instruction that takes a Running core to Faulted has taken one of its own fault entries (R161, R171). -/
theorem Change.fault_entry {i : Instr} {s t : State} {k : FaultKind} (hc : Change i s t)
    (hs : s.status = .running) (ht : t.status = .faulted k) :
    k ∈ tabledFaults i ∧ t = s.withFault k := by
  obtain hkeep | ⟨a, b, c, -, rfl⟩ | ⟨k', hk', rfl⟩ := hc.status_cases
  · exact nomatch hs.symm.trans (hkeep.symm.trans ht)
  · cases ht
  · cases ht
    exact ⟨hk', rfl⟩

/-! ### States that raise the tabled faults -/

/-- The core right after reset on the empty image, with the same Word in every register: an instruction
then finds that Word whatever registers it names. -/
def allRegs (v : Word) : State := State.boot (Vector.replicate 8 v) none [] []

/-- The counter past ID_MAX and no id to reuse (R156). -/
def idsUsedUp : State := { allRegs 0 with nextId := 0xFFFFFFFF }

/-- A storage of one Word, all of it taken by segment 1 (R170); every register holds 1. -/
def storageFull : State :=
  { allRegs 1 with
    seg := (allRegs 1).seg.register 1 (Segment.zeros 1)
    nextId := 2
    storageLimit := some 1 }

@[simp] theorem reg_allRegs (v : Word) (r : Reg) : (allRegs v).reg r = v :=
  Vector.getElem_replicate r.isLt

@[simp] theorem reg_storageFull (r : Reg) : storageFull.reg r = 1 := reg_allRegs 1 r

theorem createSegment_idsUsedUp (n : Word) :
    idsUsedUp.createSegment n = .error .idSpaceExhausted :=
  State.createSegment_eq_error.2 (.inr ⟨rfl, State.allocateId_eq_error.2 ⟨rfl, by decide, rfl⟩⟩)

/-- One Word more does not fit: 1 + 1 is above the limit. -/
theorem createSegment_storageFull : storageFull.createSegment 1 = .error .storageExhausted :=
  State.createSegment_eq_error.2 (.inl ⟨by decide, rfl⟩)

/-- Nor does a copy of segment 1, the old segment 0 being empty. -/
theorem copyToZero_storageFull : storageFull.copyToZero 1 = .error .storageExhausted :=
  State.copyToZero_eq_error.2 ⟨by decide, .inr ⟨Segment.zeros 1, rfl, by decide, rfl⟩⟩

/-- Every entry of the table after R171 has a Running state in which the instruction raises it. -/
theorem exists_raises_of_tabled {i : Instr} {k : FaultKind} (hk : k ∈ tabledFaults i) :
    ∃ s : State, s.status = .running ∧ Raises i s k := by
  have unmapped : (allRegs 1).lenOf 1 = none := by decide
  simp only [Raises, exec_eq_next]
  cases i with
  | cmov a b c | add a b c | mul a b c | nand a b c | loadi a imm | input a b c | halt a b c =>
    cases hk
  | div a b c =>
    obtain rfl := List.mem_singleton.1 hk
    exact ⟨allRegs 0, rfl, .inr ⟨reg_allRegs 0 c, rfl⟩⟩
  | sload a b c =>
    obtain rfl := List.mem_singleton.1 hk
    refine ⟨allRegs 1, rfl, .inr ⟨_, ?_, rfl⟩⟩
    rw [reg_allRegs, reg_allRegs, State.memRead_of_lenOf_none unmapped]
  | sstore a b c =>
    obtain rfl := List.mem_singleton.1 hk
    refine ⟨allRegs 1, rfl, .inr ⟨_, ?_, rfl⟩⟩
    rw [reg_allRegs, reg_allRegs, State.memWrite_of_lenOf_none unmapped]
  | map a b c =>
    obtain rfl | rfl := List.mem_pair.1 hk
    · exact ⟨idsUsedUp, rfl, .inr ⟨_, createSegment_idsUsedUp _, rfl⟩⟩
    · refine ⟨storageFull, rfl, .inr ⟨_, ?_, rfl⟩⟩
      rw [reg_storageFull, createSegment_storageFull]
  | unmap a b c =>
    obtain rfl | rfl := List.mem_pair.1 hk
    · exact ⟨allRegs 0, rfl, .inr ⟨_, State.deleteSegment_eq_error.2 (.inl ⟨reg_allRegs 0 c, rfl⟩), rfl⟩⟩
    · refine ⟨allRegs 1, rfl, .inr ⟨_, ?_, rfl⟩⟩
      rw [reg_allRegs]
      exact State.deleteSegment_eq_error.2 (.inr ⟨by decide, State.lenOf_eq_none.1 unmapped, rfl⟩)
  | output a b c =>
    obtain rfl := List.mem_singleton.1 hk
    refine ⟨allRegs 256, rfl, .inr ⟨?_, rfl⟩⟩
    rw [reg_allRegs]
    decide
  | loadp a b c =>
    obtain rfl | rfl := List.mem_pair.1 hk
    · refine ⟨allRegs 1, rfl, .inr ⟨_, ?_, rfl⟩⟩
      rw [reg_allRegs, State.copyToZero_of_lenOf_none (by decide) unmapped]
    · refine ⟨storageFull, rfl, .inr ⟨_, ?_, rfl⟩⟩
      rw [reg_storageFull, copyToZero_storageFull]
  | illegal14 | illegal15 =>
    obtain rfl := List.mem_singleton.1 hk
    exact ⟨allRegs 0, rfl, rfl⟩

end Sys2Proof.Machine
end

section
/-! PROOFS. The faults: which there are, when a fetch raises one, and that each is precise
(60_exceptions.md R157, R161, R171). -/

namespace Sys2Proof.Proofs

open Sys2Proof.Machine

/-- Settles O21: such a fetch fails, and its fault is the step's. -/
theorem fetchBeyondTheEndFaults : Obligations.FetchBeyondTheEndFaults :=
  fun _ _ hs hn hpc => step_eq_next.2 ⟨hs, .inl ⟨State.fetch_of_len_le hn hpc, rfl⟩⟩

/-- Settles O23: the fetch's fault entry, or one of the decoded instruction's. -/
theorem faultsChangeOnlyTheStatus : Obligations.FaultsChangeOnlyTheStatus := by
  intro s t k h ht
  obtain ⟨hs, ⟨rfl, -⟩ | ⟨w, -, he⟩⟩ := step_cases h
  · cases ht
    rfl
  · obtain ⟨-, hentry⟩ := (exec_change he).fault_entry hs ht
    exact hentry

/-- Settles O25: what an instruction raises is in its row, and each entry of a row is raised in some state. -/
theorem eachInstructionRaisesExactlyItsTabledFaults :
    Obligations.EachInstructionRaisesExactlyItsTabledFaults := by
  refine fun i k => ⟨?_, exists_raises_of_tabled⟩
  rintro ⟨s, hs, hraise⟩
  obtain ⟨htabled, -⟩ := (exec_change hraise).fault_entry hs rfl
  exact htabled

end Sys2Proof.Proofs
end

section
/-! PROOFS. The words written out from the field positions (30_encoding.md R52, R53). -/

namespace Sys2Proof.Proofs

open Sys2Proof.Machine Sys2Proof.Laws

/-- Settles O5: each word has the fields of its format that the instruction carries, in ADD's word with the
unused bits set as well; the last word has opcode 14. -/
theorem writtenOutWordsDecode : Obligations.WrittenOutWordsDecode :=
  ⟨decode_of_formatS (op := 0) (by decide) ⟨rfl, rfl, rfl, rfl⟩,
    decode_of_formatS (op := 1) (by decide) ⟨rfl, rfl, rfl, rfl⟩,
    decode_of_formatS (op := 2) (by decide) ⟨rfl, rfl, rfl, rfl⟩,
    decode_of_formatS (op := 3) (by decide) ⟨rfl, rfl, rfl, rfl⟩,
    decode_of_formatS (op := 8) (by decide) ⟨rfl, rfl, rfl, rfl⟩,
    decode_of_formatS (op := 11) (by decide) ⟨rfl, rfl, rfl, rfl⟩,
    decode_of_formatS (op := 12) (by decide) ⟨rfl, rfl, rfl, rfl⟩,
    decode_of_formatI ⟨rfl, rfl, rfl⟩,
    decode_of_opcode14 rfl⟩

end Sys2Proof.Proofs
end
